-- ==== Sys2Proof/Word.lean ====
section
/-! DEFINITION. The byte and the byte sequence, the only two data types the engine's spaces hold (00_scope.md R8, R9; 20_memory.md R50, R53). -/

namespace Sys2Proof

/-- An 8-bit unsigned value; bit i is the bit of weight 2^i (00_scope.md R8). -/
abbrev Byte := BitVec 8

/-- A byte space: the byte at address a is element a, and an address at or past the length does not exist
(20_memory.md R50 for `IN`, R53 for `out`; both are indexed from 0, R61). Equal spaces are equal lists. -/
abbrev Memory := List Byte

end Sys2Proof
end

