-- ==== Sys2Proof/Config.lean ====
section
/-! DEFINITION. The parameters of one engine instance (00_scope.md R6), the field widths the source fixes, and the one
free value. The spec's own choice of the parameters is `engineConfig` in Decode.lean, where a repair may mend it. -/

namespace Sys2Proof

/-- BYTE_BIT_ORDER: which bit of an input byte enters the stream first (00_scope.md R6, 20_memory.md R51). -/
inductive BitOrder where
  /-- Bit 7 first. -/
  | msbFirst
  /-- Bit 0 first. -/
  | lsbFirst
deriving DecidableEq, Repr

/-- LIT_WIDTH as a table of four naturals (30_encoding.md R74, 42_literal.md R131). -/
structure LitWidths where
  w0 : Nat
  w1 : Nat
  w2 : Nat
  w3 : Nat
deriving DecidableEq, Repr

/-- The table lookup of 42_literal.md R131: an enumerated mapping, never a formula of the selector. -/
def LitWidths.get (t : LitWidths) : Fin 4 → Nat
  | 0 => t.w0
  | 1 => t.w1
  | 2 => t.w2
  | 3 => t.w3

/-- The parameters of an instance (00_scope.md R6). They never change (R3, 20_memory.md R56) and are no state
(10_state.md R20). -/
structure Config where
  /-- BYTE_BIT_ORDER. -/
  byteBitOrder : BitOrder
  /-- LIT_WIDTH. -/
  litWidths : LitWidths
  /-- OUT_CAP; `none` is unbounded (60_exceptions.md R176). -/
  outCap : Option Nat
  /-- IN_MAX; `none` is unbounded (92_eei_decisions.md D10). -/
  inMax : Option Nat
  /-- EXP_WIDTH in bits. -/
  expWidth : Nat
deriving DecidableEq, Repr

/-- Width of the chunk flag, fixed by the source (00_scope.md R6). -/
def Config.flagWidth : Nat := 1

/-- Width of the literal length-size selector, fixed by the source (00_scope.md R6). -/
def Config.selWidth : Nat := 2

/-- Width of the back-reference word-size field, fixed by the source (00_scope.md R6). -/
def Config.wordSizeWidth : Nat := 4

/-- The free value behind the cursor after a failed read inside a chunk: 40_bitreader.md R95 leaves it unspecified and
93_implementation_defined.md I5 treats it as any value. Applied to the counter `State.draws`; it has no body, so a
proof can use no value of it (log 6). -/
opaque Config.freeCursor : Nat → Nat

end Sys2Proof
end

