-- ==== Sys2Proof/Machine/BitReader.lean ====
section
/-! DEFINITION. The BitReader (40_bitreader.md) over the input space: the four read operations as functions of the
input and the cursor, and the two field assemblies with the way each is written. -/

namespace Sys2Proof.Machine

/-- `MemRead(a, 1)`: the input byte at address a, defined for 0 ≤ a < N only (00_scope.md R10, 20_memory.md R50). -/
def memRead (inp : Memory) (a : Nat) : Option Byte := inp[a]?

/-- The i-th bit of a byte to be consumed, i = 0..7 (20_memory.md R51). -/
def consumedBit (order : BitOrder) (b : Byte) (i : Nat) : Bool :=
  match order with
  | .msbFirst => b.getLsbD (7 - i)
  | .lsbFirst => b.getLsbD i

/-- `bit_at(k)`, stream bit k (20_memory.md R51), defined for 0 ≤ k < 8N. Every read below checks `avail` before it
takes a bit, so the value outside that range reaches nothing. -/
def bitAt (order : BitOrder) (inp : Memory) (k : Nat) : Bool :=
  match memRead inp (k / 8) with
  | some b => consumedBit order b (k % 8)
  | none => false

/-- Stream bits cur..cur+m−1 in stream order (20_memory.md R54). -/
def bitsAt (order : BitOrder) (inp : Memory) (cur m : Nat) : List Bool :=
  (List.range m).map fun i => bitAt order inp (cur + i)

/-- The number of bits not yet consumed (40_bitreader.md R90). -/
def avail (inp : Memory) (cur : Nat) : Nat := 8 * inp.length - cur

/-- Least-significant-bit-first assembly: bit i read contributes `bit << i` (40_bitreader.md R92). -/
def lsbFirst : List Bool → Nat
  | [] => 0
  | b :: bs => b.toNat + 2 * lsbFirst bs

/-- Most-significant-bit-first assembly: bit i of m read contributes `bit << (m−1−i)` (40_bitreader.md R93). -/
def msbFirst : List Bool → Nat
  | [] => 0
  | b :: bs => b.toNat * 2 ^ bs.length + msbFirst bs

/-- The bits `v[0], …, v[m−1]` (30_encoding.md R80). -/
def lsbBits (m v : Nat) : List Bool := (List.range m).map fun i => v.testBit i

/-- The bits `v[m−1], …, v[0]` (30_encoding.md R80). -/
def msbBits (m v : Nat) : List Bool := (List.range m).map fun i => v.testBit (m - 1 - i)

/-- What a read answers: a value and the cursor after it, or EndOfStream. A failed read gives no value and no
cursor (40_bitreader.md R95). -/
inductive Read (α : Type) where
  | ok (value : α) (cur : Nat)
  | endOfStream
deriving DecidableEq, Repr

/-- `read_bit()` (40_bitreader.md R91). -/
def readBit (order : BitOrder) (inp : Memory) (cur : Nat) : Read Nat :=
  if avail inp cur < 1 then .endOfStream
  else .ok (bitAt order inp cur).toNat (cur + 1)

/-- `read_uint_lsb_first(m)` (40_bitreader.md R92). -/
def readUIntLsbFirst (order : BitOrder) (inp : Memory) (cur m : Nat) : Read Nat :=
  if avail inp cur < m then .endOfStream
  else .ok (lsbFirst (bitsAt order inp cur m)) (cur + m)

/-- `read_uint_msb_first(m)` (40_bitreader.md R93), kept apart from R92's as R97 asks. -/
def readUIntMsbFirst (order : BitOrder) (inp : Memory) (cur m : Nat) : Read Nat :=
  if avail inp cur < m then .endOfStream
  else .ok (msbFirst (bitsAt order inp cur m)) (cur + m)

/-- The byte that 8 stream bits from cur on give, assembled lsb-first (40_bitreader.md R94). -/
def payloadByte (order : BitOrder) (inp : Memory) (cur : Nat) : Byte :=
  BitVec.ofNat 8 (lsbFirst (bitsAt order inp cur 8))

/-- `read_bytes(k)` (40_bitreader.md R94): all 8k bits must be there before any is taken. -/
def readBytes (order : BitOrder) (inp : Memory) (cur k : Nat) : Read (List Byte) :=
  if avail inp cur < 8 * k then .endOfStream
  else .ok ((List.range k).map fun j => payloadByte order inp (cur + 8 * j)) (cur + 8 * k)

end Sys2Proof.Machine
end

