-- ==== Sys2Proof/Syntax.lean ====
section
/-! DEFINITION. The instructions: the two chunk kinds of 30_encoding.md R71, one constructor per row of opcode_table.json. -/

namespace Sys2Proof

/-- A chunk of the compressed stream (30_encoding.md R79 notation). All fields are unsigned counts, widths and
distances (R76), so they are naturals; `WellFormed` says which values the encoding holds. -/
inductive Instr where
  /-- `LIT sel, n, [b0, …]` (30_encoding.md R72, 42_literal.md R130). The count n is the payload's length, so that a
  chunk whose count and payload disagree cannot be written (log 10). -/
  | lit (sel : Fin 4) (payload : List Byte)
  /-- `BREF w, off, len` (30_encoding.md R73, 43_backref.md R150): word size, distance back from the end of the
  output, number of bytes to copy. -/
  | bref (w : Nat) (off : Nat) (len : Nat)
deriving DecidableEq, Repr

end Sys2Proof
end

