-- ==== Sys2Proof/WellFormed.lean ====
section
/-! DEFINITION. Which chunks the encoding can hold (00_scope.md R7; 30_encoding.md R72 to R74). -/

namespace Sys2Proof

/-- Every field fits the width the encoding gives it. A distance of 0 or past the start of the output is well formed:
it is illegal by value when it runs, not as an encoding (30_encoding.md R77). -/
def Instr.wf (cfg : Config) : Instr → Bool
  | .lit sel payload => decide (payload.length < 2 ^ cfg.litWidths.get sel)
  | .bref w off len => decide (w < 2 ^ Config.wordSizeWidth) && (decide (off < 2 ^ w) && decide (len < 2 ^ w))

end Sys2Proof
end

