-- ==== Sys2Proof/Decode.lean ====
section
/-! DEFINITION. The decoder of one chunk (30_encoding.md R72, R73, with the reads of 42_literal.md R130 and
43_backref.md R150), total on any input and cursor; the encoder written from the same formats (R79, R80); the spec's
parameter values; and the host's two views of a table word. -/

namespace Sys2Proof

open Sys2Proof.Machine

/-- The engine this spec describes: the "value in this spec" column of 00_scope.md R6. The source leaves each open, so
every value is the spec's own decision (D2, D3, D8, D10) and not the source's (log 1). -/
def engineConfig : Config where
  byteBitOrder := .msbFirst
  litWidths := { w0 := 4, w1 := 8, w2 := 12, w3 := 16 }
  outCap := none
  inMax := none
  expWidth := 32

/-! ## Decoding -/

/-- What stands at a cursor. There is no reserved pattern (30_encoding.md R77): decoding fails only where the stream
ends, and where it ends decides what that means. -/
inductive Decoded where
  /-- A whole chunk, and the cursor after it. -/
  | chunk (i : Instr) (next : Nat)
  /-- No bit remains at the flag: the graceful end of 41_dispatch.md R113. -/
  | endOfStream
  /-- A read after the flag met the end of the stream: TruncatedChunk (60_exceptions.md R171). `cur` is where that
  read stood. -/
  | truncated (cur : Nat)
deriving DecidableEq, Repr

/-- A 2-bit field value as the selector it is (30_encoding.md R74: all four values are defined). -/
def selectorOf (v : Nat) : Fin 4 := Fin.ofNat 4 v

/-- The selector, count and payload reads of `LIT()` (42_literal.md R130), from the bit after the flag. -/
def decodeLiteral (cfg : Config) (inp : Memory) (cur : Nat) : Decoded :=
  match readUIntLsbFirst cfg.byteBitOrder inp cur Config.selWidth with
  | .endOfStream => .truncated cur
  | .ok s cur =>
    let sel := selectorOf s
    match readUIntLsbFirst cfg.byteBitOrder inp cur (cfg.litWidths.get sel) with
    | .endOfStream => .truncated cur
    | .ok n cur =>
      match readBytes cfg.byteBitOrder inp cur n with
      | .endOfStream => .truncated cur
      | .ok payload cur => .chunk (.lit sel payload) cur

/-- The word-size, offset and length reads of `BREF()` (43_backref.md R150), from the bit after the flag. -/
def decodeBackref (cfg : Config) (inp : Memory) (cur : Nat) : Decoded :=
  match readUIntMsbFirst cfg.byteBitOrder inp cur Config.wordSizeWidth with
  | .endOfStream => .truncated cur
  | .ok w cur =>
    match readUIntLsbFirst cfg.byteBitOrder inp cur w with
    | .endOfStream => .truncated cur
    | .ok off cur =>
      match readUIntLsbFirst cfg.byteBitOrder inp cur w with
      | .endOfStream => .truncated cur
      | .ok len cur => .chunk (.bref w off len) cur

/-- The flag read and the choice of the chunk kind (30_encoding.md R71, 41_dispatch.md R113, R115). -/
def decodeAt (cfg : Config) (inp : Memory) (cur : Nat) : Decoded :=
  match readUIntLsbFirst cfg.byteBitOrder inp cur Config.flagWidth with
  | .endOfStream => .endOfStream
  | .ok flag cur => if flag = 0 then decodeLiteral cfg inp cur else decodeBackref cfg inp cur

/-! ## Encoding -/

/-- The stream bits of a chunk, in stream order (30_encoding.md R72, R73). -/
def encode (cfg : Config) : Instr → List Bool
  | .lit sel payload =>
    false :: (lsbBits Config.selWidth sel.val
      ++ (lsbBits (cfg.litWidths.get sel) payload.length
      ++ payload.flatMap fun b => lsbBits 8 b.toNat))
  | .bref w off len =>
    true :: (msbBits Config.wordSizeWidth w ++ (lsbBits w off ++ lsbBits w len))

/-- The stream bits of a program: its chunks one after the other, with no separator (30_encoding.md R70, R79). -/
def encodeProgram (cfg : Config) (prog : List Instr) : List Bool := prog.flatMap (encode cfg)

/-- The input byte that holds 8 stream bits (30_encoding.md R80): the first of them at bit 7 or at bit 0. -/
def byteOfBits (order : BitOrder) (bits : List Bool) : Byte :=
  match order with
  | .msbFirst => BitVec.ofNat 8 (msbFirst bits)
  | .lsbFirst => BitVec.ofNat 8 (lsbFirst bits)

/-- Packing stream bits into input bytes, the last byte filled with `pad` (30_encoding.md R79 `.pad`, R80). -/
def packBits (order : BitOrder) (pad : Bool) (bits : List Bool) : Memory :=
  (List.range ((bits.length + 7) / 8)).map fun j =>
    byteOfBits order ((List.range 8).map fun i => bits.getD (8 * j + i) pad)

/-! ## The opcode table's words

opcode_table.json numbers a chunk's bits by stream position, bit 0 the flag (30_encoding.md, head of the file). -/

/-- How many stream bits the chunk has whose first bits are those of v, with zeros after them
(30_encoding.md R72, R73). -/
def tableChunkBits (cfg : Config) (v : Nat) : Nat :=
  if v.testBit 0 then 5 + 2 * msbFirst (lsbBits Config.wordSizeWidth (v / 2))
  else
    let width := cfg.litWidths.get (selectorOf (v / 2))
    3 + width + 8 * (v / 8 % 2 ^ width)

/-- The input bytes of a table word: bit k of w is stream bit k, every bit from nbits on is 0, and there are bytes
enough for the whole chunk the word begins (log 12). -/
def tableBytes (cfg : Config) (nbits w : Nat) : Memory :=
  let v := w % 2 ^ nbits
  packBits cfg.byteBitOrder false (lsbBits (max nbits (tableChunkBits cfg v)) v)

/-- The chunk the decoder reads from a table word. -/
def decodeTableWord (nbits w : Nat) : Option Instr :=
  match decodeAt engineConfig (tableBytes engineConfig nbits w) 0 with
  | .chunk i _ => some i
  | .endOfStream => none
  | .truncated _ => none

end Sys2Proof
end

