-- ==== Sys2Proof/Machine/State.lean ====
section
/-! DEFINITION. The state tuple of 10_state.md R20, its reset value (R33, 70_reset_and_hazards.md R190), and the reasons a
step or a host move can stop. -/

namespace Sys2Proof.Machine

/-- `status` (10_state.md R25). -/
inductive Status where
  /-- No command has run since reset. -/
  | idle
  /-- A decode command is executing. -/
  | busy
  /-- The last command finished normally and `out` is its result. -/
  | done
  /-- The last command ended with the DecodeError in `errKind` and `errPos`. -/
  | error
deriving DecidableEq, Repr

/-- The kinds of DecodeError (60_exceptions.md R170). -/
inductive ErrKind where
  /-- End of input inside a chunk (R171). -/
  | truncatedChunk
  /-- Offset 0 or before the start of the output (43_backref.md R151). -/
  | invalidBackreference
  /-- The output does not fit OUT_CAP; bounded instances only (R176). -/
  | capacityExceeded
deriving DecidableEq, Repr

/-- The elements of a command that the host reads (10_state.md R21, R22, R24, R32). -/
inductive CommandElement where
  | inp | exp | out
deriving DecidableEq, Repr

/-- The chunk latches (10_state.md R27). -/
inductive Latch where
  | cs | flag | sel | n | w | off | len | src
deriving DecidableEq, Repr

/-- The error registers (10_state.md R26). -/
inductive ErrorRegister where
  | errKind | errPos
deriving DecidableEq, Repr

/-- Why the model stops with a fault. None of these can happen in a chunk or a step from a state that meets the model's
invariant. The first four are the reads that the spec itself says fault; all are safe, the model stops where hardware
would give some value. -/
inductive Fault where
  /-- Before the first command since power-on reset: "a model gives the element no value (reading it faults)"
  (10_state.md R33; I8). Raised by the host's reads of IN, N, EXP, `out` and |out|. -/
  | unspecifiedAfterReset (e : CommandElement)
  /-- "A model must treat a latch read outside that span as a fault, not as zero" (10_state.md R27; I7). Raised by a
  latch's read in a chunk body and in the error entry, which write it first. -/
  | latchOutsideChunk (l : Latch)
  /-- "A model gives `out` no value after an error (reading it faults)" (60_exceptions.md R172; I6). Raised by the host's
  reads of `out` and |out|. -/
  | outputAfterError
  /-- The error registers are "valid only when `status = ERROR`" and hold no value otherwise (10_state.md R26, R33).
  Raised by the host's reads of them. -/
  | registerOutsideError (r : ErrorRegister)
  /-- A chunk body or the chunk loop was run while no decode command executes: status is not BUSY, or an element that
  every command's start writes (41_dispatch.md R111) holds no value. R110 and R117 run a chunk inside a command only.
  Raised by `openChunk`, `chunkStep` and the chunk bodies. Safe: the machine's own step never does it (log 9). -/
  | noCommand
  /-- `OutRead(i)` with i ≥ |out| (20_memory.md R53 defines it for i < |out| only). Raised by a copy. Safe:
  43_backref.md R153 shows that no legal copy does it. -/
  | outputRange
deriving DecidableEq, Repr

/-- Why the model refuses. -/
inductive Refusal where
  /-- An instruction that has no meaning yet. Raised by `exec` only, and by none of its arms now. Safe. -/
  | notModelled (mnemonic : String)
  /-- A decode command while BUSY: the host has no such move (41_dispatch.md R111, I9). Raised by `issueDecode`. Safe
  for a host that keeps its duties. -/
  | commandWhileBusy
  /-- A host access to `out` or `|out|` while BUSY (70_reset_and_hazards.md R194, I9; log 11). Raised by the host's
  reads. Safe. -/
  | outputWhileBusy
  /-- A command with more than IN_MAX input bytes (00_scope.md R6, I4). Raised by `issueDecode`. Safe. -/
  | inputTooLong
  /-- A command whose expected length does not fit EXP_WIDTH bits (00_scope.md R6, 10_state.md R22). Raised by
  `issueDecode`. Safe. -/
  | expectedLengthTooWide
deriving DecidableEq, Repr

/-- The engine's state (10_state.md R20). An element that "holds no value" is `none`: that is the spec's own state of
it (R27, R33; log 3). -/
structure State where
  /-- `status` (R25). -/
  status : Status
  /-- `IN`, the compressed input; `N` is its length (R21). -/
  inp : Option Memory
  /-- `EXP`, the expected length (R22). -/
  exp : Option Nat
  /-- `cur`, the bit cursor and program counter (R23). -/
  cur : Option Nat
  /-- `out`, the output buffer (R24). -/
  out : Option Memory
  /-- Latch: position of the current chunk's flag (R27). -/
  cs : Option Nat
  /-- Latch: chunk kind, `false` literal, `true` back-reference (R27). -/
  flag : Option Bool
  /-- Latch: literal length-size selector (R27). -/
  sel : Option (Fin 4)
  /-- Latch: literal byte count (R27). -/
  n : Option Nat
  /-- Latch: word size (R27). -/
  w : Option Nat
  /-- Latch: back-reference offset (R27). -/
  off : Option Nat
  /-- Latch: back-reference length (R27). -/
  len : Option Nat
  /-- Latch: source start of the copy (R27). -/
  src : Option Nat
  /-- `err_kind` (R26). -/
  errKind : Option ErrKind
  /-- `err_pos` (R26). -/
  errPos : Option Nat
  /-- THE MODEL'S OWN FIELD: how many free values have been drawn (log 7). -/
  draws : Nat
deriving DecidableEq, Repr

/-- Power-on reset: `status` = IDLE and every other element holds no value (10_state.md R33, 70_reset_and_hazards.md
R190). The model's own counter starts at 0 (DESIGN CHOICE, log 7). -/
def State.reset : State where
  status := .idle
  inp := none
  exp := none
  cur := none
  out := none
  cs := none
  flag := none
  sel := none
  n := none
  w := none
  off := none
  len := none
  src := none
  errKind := none
  errPos := none
  draws := 0

end Sys2Proof.Machine
end

