-- ==== Sys2Proof/Machine/Ops.lean ====
section
/-! DEFINITION. The named operations over the state and the two spaces: reading an element, the latches, the output
space, opening and ending a chunk, the normal finish, entering an error (the engine's one exception) and starting a
command (its one return from it). -/

namespace Sys2Proof.Machine

/-- The three outcomes of a step of this engine. -/
abbrev Outcome := Host.Outcome State Fault Refusal

/-- Reading an element: its value, or, where it holds none, the fault that this read raises. -/
def need {α β : Type} (x : Option α) (f : Fault) (k : α → Host.Outcome β Fault Refusal) :
    Host.Outcome β Fault Refusal :=
  match x with
  | some a => k a
  | none => .fault f

/-- Reading a latch, which holds a value inside its chunk only (10_state.md R27). -/
def needLatch {α : Type} (x : Option α) (l : Latch) (k : α → Outcome) : Outcome := need x (.latchOutsideChunk l) k

/-- Reading an element of the running command, which its start has written (41_dispatch.md R111; log 9). -/
def needCommand {α : Type} (x : Option α) (k : α → Outcome) : Outcome := need x .noCommand k

/-! ## The output space (20_memory.md R53) -/

/-- `OutRead(i)`, defined for i < |out| only. -/
def outRead (out : Memory) (i : Nat) : Option Byte := out[i]?

/-- Whether OUT_CAP holds an output of `size` bytes; an unbounded instance holds any (60_exceptions.md R176). -/
def fits (cap : Option Nat) (size : Nat) : Bool :=
  match cap with
  | none => true
  | some c => decide (size ≤ c)

/-- `OutAppend(v)`: the output grows by one byte at address |out|; `none` where that would exceed OUT_CAP
(60_exceptions.md R176). -/
def outAppend (cap : Option Nat) (out : Memory) (v : Byte) : Option Memory :=
  if fits cap (out.length + 1) then some (out ++ [v]) else none

/-- `for j in 0 .. n-1: OutAppend(p[j])` (42_literal.md R130); `none` at the first byte that does not fit. -/
def appendAll (cap : Option Nat) (out : Memory) : List Byte → Option Memory
  | [] => some out
  | v :: p =>
    match outAppend cap out v with
    | some out => appendAll cap out p
    | none => none

/-- How a copy ends. -/
inductive Copied where
  | ok (out : Memory)
  /-- An `OutAppend` did not fit OUT_CAP (60_exceptions.md R176). -/
  | capacityExceeded
  /-- An `OutRead` was outside the output; never for a legal offset (43_backref.md R153). -/
  | outsideOutput
deriving DecidableEq, Repr

/-- `for i in 0 .. len-1: OutAppend(OutRead(src + i))` (43_backref.md R153): one byte at a time in increasing order,
each read from the output as it has grown. Here `src` is the next address to read and the last argument the number
of bytes still to copy. -/
def copyBytes (cap : Option Nat) (out : Memory) (src : Nat) : Nat → Copied
  | 0 => .ok out
  | len + 1 =>
    match outRead out src with
    | none => .outsideOutput
    | some v =>
      match outAppend cap out v with
      | none => .capacityExceeded
      | some out => copyBytes cap out (src + 1) len

/-! ## Writes of the state -/

/-- `cs <- cur; flag <- …` (41_dispatch.md R113). -/
def State.latchChunk (s : State) (cs : Nat) (flag : Bool) : State :=
  { s with cs := some cs, flag := some flag }

/-- The latches `LIT()` writes (42_literal.md R130). -/
def State.latchLiteral (s : State) (sel : Fin 4) (n : Nat) : State :=
  { s with sel := some sel, n := some n }

/-- The latches `BREF()` reads from the stream (43_backref.md R150). -/
def State.latchBackref (s : State) (w off len : Nat) : State :=
  { s with w := some w, off := some off, len := some len }

/-- `src <- L0 - off` (43_backref.md R152). -/
def State.latchSource (s : State) (src : Nat) : State :=
  { s with src := some src }

/-- The cursor's new value. -/
def State.setCur (s : State) (cur : Nat) : State :=
  { s with cur := some cur }

/-- The output's new contents. -/
def State.setOut (s : State) (out : Memory) : State :=
  { s with out := some out }

/-- The end of a chunk: from here on its latches hold no value (10_state.md R27; log 8). -/
def State.endChunk (s : State) : State :=
  { s with
    cs := none, flag := none, sel := none, n := none,
    w := none, off := none, len := none, src := none }

/-- `finish` (41_dispatch.md R114): the cursor and the output stay as they stand. -/
def State.finish (s : State) : State :=
  { s with status := .done }

/-- The cursor after a read that failed where it stood at `cur`: unspecified (40_bitreader.md R95, I5), within what
10_state.md R23 says of every cursor value, from `cur` to the sentinel 8N (log 6). -/
def State.loseCursor (s : State) (inp : Memory) (cur : Nat) : State :=
  { s with
    cur := some (cur + Config.freeCursor s.draws % (avail inp cur + 1)),
    draws := s.draws + 1 }

/-- The writes of `raise DecodeError(kind, cs)` (60_exceptions.md R172): kind and chunk start are recorded, `out` has
no value from here on (I6), and the failing chunk is over, so its latches hold none. -/
def State.enterError (s : State) (kind : ErrKind) (cs : Nat) : State :=
  { s.endChunk with status := .error, errKind := some kind, errPos := some cs, out := none }

/-- `start(IN', EXP')` (41_dispatch.md R111): nothing of the previous command is left. -/
def State.start (s : State) (inp : Memory) (exp : Nat) : State :=
  { s.endChunk with
    status := .busy, inp := some inp, exp := some exp, cur := some 0, out := some [],
    errKind := none, errPos := none }

/-! ## Taking an error, opening a chunk -/

/-- TAKING AN ERROR, shared by every kind: `raise DecodeError(kind, cs)` (60_exceptions.md R172), with the position
from the latch `cs` (R174). Control returns to the host (R177), so this is a next state. -/
def raiseError (kind : ErrKind) (s : State) : Outcome :=
  needLatch s.cs .cs fun cs => .next (s.enterError kind cs)

/-- The head of every chunk (41_dispatch.md R113): it records the chunk start and the flag, inside a command only. -/
def openChunk (flag : Bool) (s : State) (body : State → Outcome) : Outcome :=
  match s.status with
  | .busy => needCommand s.cur fun cur => body (s.latchChunk cur flag)
  | .idle => .fault .noCommand
  | .done => .fault .noCommand
  | .error => .fault .noCommand

/-! ## The memory's canonical form

The host's interface writes a memory as cells (address, byte). A byte space of this engine has its cells numbered from
0 without a gap, so the sequence is its one canonical form (log 2). -/

/-- The cells of a space. -/
def Memory.cells (m : Memory) : List Host.Cell := (List.range m.length).zip m

/-- The canonical form: addresses strictly rising. An unlisted address reads as no value, so no entry can equal it. -/
def Memory.wf (m : Memory) : Bool := decide ((Memory.cells m).Pairwise fun a b => a.1 < b.1)

end Sys2Proof.Machine
end

