-- ==== Sys2Proof/Machine/Flags.lean ====
section
/-! DEFINITION. The engine has no condition codes (10_state.md R29). What steers it and what a host tests are these three
comparisons. -/

namespace Sys2Proof.Machine

/-- The termination test of a chunk boundary, `|out| >= EXP` (41_dispatch.md R112). -/
def reachedLength (out : Memory) (exp : Nat) : Bool := decide (exp ≤ out.length)

/-- A legal offset: 1 ≤ off ≤ L0 (43_backref.md R151). -/
def legalOffset (L0 off : Nat) : Bool := decide (1 ≤ off ∧ off ≤ L0)

/-- A short result, `|out| < EXP`; no flag of the engine holds it, the host compares (10_state.md R29). -/
def shortResult (out : Memory) (exp : Nat) : Bool := decide (out.length < exp)

end Sys2Proof.Machine
end

