-- ==== Sys2Proof/Machine/Operands.lean ====
section
/-! DEFINITION. What the operands of the two chunks measure: their lengths in stream bits, the most bytes a chunk can
append, the reported form of an error position, and the expected length the host forms. -/

namespace Sys2Proof.Machine

/-- Stream bits of a literal chunk, its flag counted (30_encoding.md R72). -/
def literalBits (cfg : Config) (sel : Fin 4) (n : Nat) : Nat := 3 + cfg.litWidths.get sel + 8 * n

/-- Stream bits of a back-reference chunk, its flag counted (30_encoding.md R73). -/
def backrefBits (w : Nat) : Nat := 5 + 2 * w

/-- Stream bits of a chunk (40_bitreader.md R98). -/
def chunkBits (cfg : Config) : Instr → Nat
  | .lit sel payload => literalBits cfg sel payload.length
  | .bref w _ _ => backrefBits w

/-- How many bytes a completed chunk appends (42_literal.md R130, 43_backref.md R150). -/
def appendedBytes : Instr → Nat
  | .lit _ payload => payload.length
  | .bref _ _ len => len

/-- M of 41_dispatch.md R116, the most bytes one chunk can append. The rule writes the table's last entry; for a table
whose last entry is not its largest this takes the largest. -/
def largestChunk (cfg : Config) : Nat :=
  let t := cfg.litWidths
  max (2 ^ max (max t.w0 t.w1) (max t.w2 t.w3) - 1) (2 ^ 15 - 1)

/-- The code of an error kind (60_exceptions.md R173). -/
def ErrKind.code : ErrKind → Nat
  | .truncatedChunk => 1
  | .invalidBackreference => 2
  | .capacityExceeded => 3

/-- A stream position as (byte index, bit index within the byte) (00_scope.md R9, 60_exceptions.md R174). -/
def bytePosition (k : Nat) : Nat × Nat := (k / 8, k % 8)

/-- The expected length the host forms from the four header bytes in file order (20_memory.md R55). The engine never
sees the header. -/
def headerExpectedLength (h0 h1 h2 h3 : Byte) : Nat :=
  h0.toNat + h1.toNat * 2 ^ 8 + h2.toNat * 2 ^ 16 + h3.toNat * 2 ^ 24

end Sys2Proof.Machine
end

