-- ==== Sys2Proof/Machine/Backref.lean ====
section
/-! DEFINITION. The back-reference copy datapath (43_backref.md). -/

namespace Sys2Proof.Machine

/-- `BREF()` of 43_backref.md R150 for any instance: the fields the decoder read are latched and the cursor moves past
the chunk; then the validity check (R151), the source position (R152) and the sequential copy (R153). -/
def backrefChunk (cfg : Config) (w off len : Nat) (s : State) : Outcome :=
  openChunk true s fun s =>
    let s := s.latchBackref w off len
    needLatch s.w .w fun w =>
    needLatch s.off .off fun off =>
    needLatch s.cs .cs fun cs =>
    let s := s.setCur (cs + backrefBits w)
    needCommand s.out fun out =>
    if legalOffset out.length off then
      let s := s.latchSource (out.length - off)
      needLatch s.src .src fun src =>
      needLatch s.len .len fun len =>
      match copyBytes cfg.outCap out src len with
      | .ok out => .next (s.setOut out).endChunk
      | .capacityExceeded => raiseError .capacityExceeded s
      | .outsideOutput => .fault .outputRange
    else raiseError .invalidBackreference s

/-- BREF on the engine of this spec. -/
def execBref (w off len : Nat) (s : State) : Outcome :=
  backrefChunk engineConfig w off len s

end Sys2Proof.Machine
end

