-- ==== Sys2Proof/Machine/Literal.lean ====
section
/-! DEFINITION. The literal-copy datapath (42_literal.md). -/

namespace Sys2Proof.Machine

/-- `LIT()` of 42_literal.md R130 for any instance: the fields the decoder read are latched, the cursor moves past the
chunk, and the payload is appended in order. -/
def literalChunk (cfg : Config) (sel : Fin 4) (payload : List Byte) (s : State) : Outcome :=
  openChunk false s fun s =>
    let s := s.latchLiteral sel payload.length
    needLatch s.sel .sel fun sel =>
    needLatch s.n .n fun n =>
    needLatch s.cs .cs fun cs =>
    let s := s.setCur (cs + literalBits cfg sel n)
    needCommand s.out fun out =>
    match appendAll cfg.outCap out payload with
    | some out => .next (s.setOut out).endChunk
    | none => raiseError .capacityExceeded s

/-- LIT on the engine of this spec. -/
def execLit (sel : Fin 4) (payload : List Byte) (s : State) : Outcome :=
  literalChunk engineConfig sel payload s

end Sys2Proof.Machine
end

