-- ==== Sys2Proof/Machine/Command.lean ====
section
/-! DEFINITION. The chunk loop (41_dispatch.md section 2) and the host's moves: the decode command (R110, R111), the
power-on reset (70_reset_and_hazards.md R190, R191) and the reads (10_state.md R32). -/

namespace Sys2Proof.Machine

/-! ## The chunk loop -/

/-- End of stream after the flag of the chunk at `cs`, met by a read that stood at `cur` (60_exceptions.md R171): the
chunk start and flag are latched as in R113, the cursor is lost (40_bitreader.md R95) and nothing is appended. -/
def truncateChunk (cfg : Config) (inp : Memory) (cs cur : Nat) (s : State) : Outcome :=
  raiseError .truncatedChunk
    ((s.latchChunk cs (bitAt cfg.byteBitOrder inp cs)).loseCursor inp cur)

/-- One architectural step of a running command (41_dispatch.md R117): the check of R112, the flag read of R113, and
the body of R115, which `body` runs. -/
def chunkStep (cfg : Config) (body : Instr → State → Outcome) (s : State) : Outcome :=
  needCommand s.out fun out =>
  needCommand s.exp fun exp =>
  if reachedLength out exp then .next s.finish
  else
    needCommand s.inp fun inp =>
    needCommand s.cur fun cur =>
    match decodeAt cfg inp cur with
    | .endOfStream => .next s.finish
    | .truncated failed => truncateChunk cfg inp cur failed s
    | .chunk i _ => body i s

/-- The engine's step: a chunk while BUSY; otherwise the engine takes no step until the host's next command
(41_dispatch.md R114, 60_exceptions.md R177), and the state stays as it is (log 4). -/
def engineStep (cfg : Config) (body : Instr → State → Outcome) (s : State) : Outcome :=
  match s.status with
  | .busy => chunkStep cfg body s
  | .idle => .next s
  | .done => .next s
  | .error => .next s

/-- The two chunk bodies for any instance (41_dispatch.md R115). `exec` is this for `engineConfig`. -/
def execWith (cfg : Config) (i : Instr) (s : State) : Outcome :=
  match i with
  | .lit sel payload => literalChunk cfg sel payload s
  | .bref w off len => backrefChunk cfg w off len s

/-- The step of any instance. `step` is this for `engineConfig`. -/
def stepWith (cfg : Config) (s : State) : Outcome := engineStep cfg (execWith cfg) s

/-! ## The host's moves -/

/-- The decode command (41_dispatch.md R110, R111): accepted unless one is running, within the instance's IN_MAX and
EXP_WIDTH (00_scope.md R6). -/
def issueDecode (cfg : Config) (inp : Memory) (exp : Nat) (s : State) : Outcome :=
  if s.status = .busy then .refused .commandWhileBusy
  else if cfg.inMax.any fun m => decide (m < inp.length) then .refused .inputTooLong
  else if 2 ^ cfg.expWidth ≤ exp then .refused .expectedLengthTooWide
  else .next (s.start inp exp)

/-- Power-on reset, at any time, during a command too (70_reset_and_hazards.md R190, R191). The model's own counter goes
on, so that no free value is drawn twice (log 7). -/
def powerOn (s : State) : State := { State.reset with draws := s.draws }

/-- The host reads `err_kind` as a code, valid only when ERROR (10_state.md R26, 60_exceptions.md R173). -/
def hostReadErrKind (s : State) : Host.Outcome Nat Fault Refusal :=
  need s.errKind (.registerOutsideError .errKind) fun k => .next k.code

/-- The host reads `err_pos` as (byte, bit), valid only when ERROR (10_state.md R26, 60_exceptions.md R174). -/
def hostReadErrPos (s : State) : Host.Outcome (Nat × Nat) Fault Refusal :=
  need s.errPos (.registerOutsideError .errPos) fun p => .next (bytePosition p)

/-- Why `out` holds no value: an error took it away (60_exceptions.md R172), or no command has run since reset
(10_state.md R33). -/
def noOutput (s : State) : Fault :=
  if s.status = .error then .outputAfterError else .unspecifiedAfterReset .out

/-- The host takes the result: never while BUSY (70_reset_and_hazards.md R194), and only while `out` has a value
(60_exceptions.md R172, 41_dispatch.md R114). -/
def hostReadOut (s : State) : Host.Outcome Memory Fault Refusal :=
  if s.status = .busy then .refused .outputWhileBusy
  else need s.out (noOutput s) fun out => .next out

/-- The host reads the output length (10_state.md R32), under the same duties as the output itself (log 11). -/
def hostReadOutLength (s : State) : Host.Outcome Nat Fault Refusal :=
  if s.status = .busy then .refused .outputWhileBusy
  else need s.out (noOutput s) fun out => .next out.length

/-- The host reads the expected length it gave (10_state.md R32). -/
def hostReadExp (s : State) : Host.Outcome Nat Fault Refusal :=
  need s.exp (.unspecifiedAfterReset .exp) fun exp => .next exp

/-- The host reads the input it gave (10_state.md R32). -/
def hostReadInput (s : State) : Host.Outcome Memory Fault Refusal :=
  need s.inp (.unspecifiedAfterReset .inp) fun inp => .next inp

/-- The host reads `N`, the input's length (10_state.md R21, R32). -/
def hostReadInputLength (s : State) : Host.Outcome Nat Fault Refusal :=
  need s.inp (.unspecifiedAfterReset .inp) fun inp => .next inp.length

/-- The state whose very next step fetches its chunk at the start of `inp`: a command that is running with `inp` as its
whole input, an output, and an expected length that is not reached yet. An output and an expected length that already
serve are kept (log 5). -/
def placeChunk (inp : Memory) (s : State) : State :=
  let out := s.out.getD []
  let exp := s.exp.getD 0
  { s with
    status := .busy, inp := some inp, cur := some 0, out := some out,
    exp := some (if reachedLength out exp then out.length + 1 else exp) }

end Sys2Proof.Machine
end

