-- ==== Sys2Proof/Machine/Dispatch.lean ====
section
/-! DEFINITION. One arm per chunk kind (41_dispatch.md R115). -/

namespace Sys2Proof.Machine

def exec (i : Instr) (s : State) : Host.Outcome State Fault Refusal :=
  match i with
  | .lit sel payload => Sys2Proof.Machine.execLit sel payload s
  | .bref w off len => Sys2Proof.Machine.execBref w off len s

end Sys2Proof.Machine
end

