-- ==== Sys2Proof/Machine/Step.lean ====
section
/-! DEFINITION. The step of the engine of this spec, and the host's placing of one table word. -/

namespace Sys2Proof.Machine

/-- One architectural step (41_dispatch.md R117). -/
def step (s : State) : Host.Outcome State Fault Refusal := engineStep engineConfig exec s

/-- `s` with a table word placed where the next step fetches its chunk: it is the whole input of a running command
(log 5, log 12). -/
def State.withFetchWord (s : State) (nbits w : Nat) : State := placeChunk (tableBytes engineConfig nbits w) s

end Sys2Proof.Machine
end

