-- ==== Sys2Proof/Safety.lean ====
section
/-! DEFINITION. The terms the claims use: the invariant of the machine, runs, what a host observes, and what a list of
chunks expands to, written without the machine. -/

namespace Sys2Proof

open Sys2Proof.Machine

/-! ## The invariant -/

/-- No latch holds a value, as 10_state.md R27 has it outside a chunk. -/
def Machine.State.latchesEmpty (s : State) : Prop :=
  s.cs = none ∧ s.flag = none ∧ s.sel = none ∧ s.n = none ∧ s.w = none ∧ s.off = none ∧ s.len = none ∧ s.src = none

/-- The input, the expected length and the cursor of a command are in range (10_state.md R21 to R23; 00_scope.md R6). -/
def CommandInRange (cfg : Config) (inp : Memory) (exp cur : Nat) : Prop :=
  (∀ m, cfg.inMax = some m → inp.length ≤ m) ∧ exp < 2 ^ cfg.expWidth ∧ cur ≤ 8 * inp.length

/-- The output is within OUT_CAP (60_exceptions.md R176), and past EXP by less than one chunk (41_dispatch.md R116, whose
M is `LIT_WIDTH[3]`'s; here it is the largest entry's, log 20). -/
def OutputInRange (cfg : Config) (exp : Nat) (out : Memory) : Prop :=
  (∀ c, cfg.outCap = some c → out.length ≤ c) ∧ (out = [] ∨ 1 ≤ exp ∧ out.length ≤ exp - 1 + largestChunk cfg)

/-- Which elements hold a value in which status, and the ranges of those that do. -/
def Machine.State.Inv (cfg : Config) (s : State) : Prop :=
  s.latchesEmpty ∧
  match s.status with
  | .idle => s.inp = none ∧ s.exp = none ∧ s.cur = none ∧ s.out = none ∧ s.errKind = none ∧ s.errPos = none
  | .busy => ∃ inp exp cur out, s.inp = some inp ∧ s.exp = some exp ∧ s.cur = some cur ∧ s.out = some out ∧
      s.errKind = none ∧ s.errPos = none ∧ CommandInRange cfg inp exp cur ∧ OutputInRange cfg exp out
  | .done => ∃ inp exp cur out, s.inp = some inp ∧ s.exp = some exp ∧ s.cur = some cur ∧ s.out = some out ∧
      s.errKind = none ∧ s.errPos = none ∧ CommandInRange cfg inp exp cur ∧ OutputInRange cfg exp out ∧
      (exp ≤ out.length ∨ cur = 8 * inp.length)
  | .error => ∃ inp exp cur kind pos, s.inp = some inp ∧ s.exp = some exp ∧ s.cur = some cur ∧ s.out = none ∧
      s.errKind = some kind ∧ s.errPos = some pos ∧ CommandInRange cfg inp exp cur ∧ pos < 8 * inp.length ∧
      (kind = .capacityExceeded → cfg.outCap ≠ none)

/-! ## The ways a chunk ends -/

/-- `s` after a chunk that completed: the cursor and the output have moved, no latch holds a value, and everything else
is as it was. -/
def Machine.State.completed (s : State) (cur : Nat) (out : Memory) : State :=
  { s with
    cur := some cur, out := some out,
    cs := none, flag := none, sel := none, n := none, w := none, off := none, len := none, src := none }

/-- `s` after an error of the chunk at `cs` that was found with the cursor at `cur` (60_exceptions.md R172, R174): no
output, no latch, and everything else as it was. -/
def Machine.State.failed (s : State) (kind : ErrKind) (cs cur : Nat) : State :=
  { s with
    status := .error, errKind := some kind, errPos := some cs, cur := some cur, out := none,
    cs := none, flag := none, sel := none, n := none, w := none, off := none, len := none, src := none }

/-- `s` after the chunk at `cs` was cut by the end of the stream, its cursor left at `cur` by a free value. -/
def Machine.State.cutShort (s : State) (cs cur : Nat) : State :=
  { s.failed .truncatedChunk cs cur with draws := s.draws + 1 }

/-! ## Runs and observations -/

/-- k steps of an instance, stopping at a fault or a refusal. -/
def runWith (cfg : Config) : Nat → State → Outcome
  | 0, s => .next s
  | k + 1, s =>
    match stepWith cfg s with
    | .next s' => runWith cfg k s'
    | .fault f => .fault f
    | .refused r => .refused r

/-- The outcome of a command (41_dispatch.md R118): status, result bytes, error kind and position. -/
def Machine.State.observe (s : State) : Status × Option Memory × Option ErrKind × Option Nat :=
  (s.status, s.out, s.errKind, s.errPos)

/-! ## What chunks expand to, without the machine -/

/-- The bytes a legal back-reference appends, in the closed form of 43_backref.md R154: the last `off` bytes of the
output as it stood, repeated. -/
def copiedBytes (out : Memory) (off len : Nat) : List Byte :=
  (List.range len).map fun i => out.getD (out.length - off + i % off) 0

/-- Appending one chunk's bytes: a literal's payload, or a back-reference's copy; `none` for an illegal offset
(43_backref.md R151). -/
def expandChunk (out : Memory) : Instr → Option Memory
  | .lit _ payload => some (out ++ payload)
  | .bref _ off len =>
    if 1 ≤ off ∧ off ≤ out.length then some (out ++ copiedBytes out off len) else none

/-- Appending the bytes of a list of chunks in order. -/
def expandProgram (out : Memory) : List Instr → Option Memory
  | [] => some out
  | i :: prog => (expandChunk out i).bind fun out => expandProgram out prog

/-- Stream bits of a list of chunks (40_bitreader.md R98). -/
def programBits (cfg : Config) (prog : List Instr) : Nat := (prog.map (chunkBits cfg)).sum

end Sys2Proof
end

