-- ==== Sys2Proof/Certificates/Slice0/Obligations.lean ====
section
/-! DEFINITION. The statements about the engine. Where a docstring says "the spec's decision D<n>", the clause rests on a
choice of the spec that its source does not make; where it names a log entry, on a choice of the model. -/

open Sys2Proof Sys2Proof.Machine

/-! ## Reset, the invariant, the host's moves -/

/-- After power-on reset `status` is IDLE and every other element holds no value. The spec's decision D19
(10_state.md, section 3: "'Unspecified' means a model gives the element no value"); log 3. -/
def Obligations.ResetIsIdleWithNoValues : Prop :=
  State.reset.status = .idle ∧ State.reset.inp = none ∧ State.reset.exp = none ∧ State.reset.cur = none ∧
  State.reset.out = none ∧ State.reset.latchesEmpty ∧ State.reset.errKind = none ∧ State.reset.errPos = none

/-- The invariant holds at reset, for every instance. -/
def Obligations.ResetMeetsInvariant : Prop := ∀ cfg : Config, State.reset.Inv cfg

/-- Every step of the engine keeps the invariant: the cursor stays within the stream, the output within one chunk past
EXP, no latch outlives its chunk, and each element holds a value exactly in the statuses that give it one. That a step
at IDLE, DONE or ERROR answers the same state is log 4. -/
def Obligations.StepKeepsInvariant : Prop :=
  ∀ s s' : State, s.Inv engineConfig → step s = .next s' → s'.Inv engineConfig

/-- From a state that meets the invariant no instance ever faults or refuses: it answers a next state that meets the
invariant again. The invariant's bound on the output takes the largest entry of the width table (log 20; R116 writes
LIT_WIDTH[3]), and the step's answer at IDLE, DONE and ERROR is log 4. -/
def Obligations.InvariantStatesNeverStop : Prop :=
  ∀ (cfg : Config) (s : State), s.Inv cfg → ∃ s', stepWith cfg s = .next s' ∧ s'.Inv cfg

/-- An accepted decode command and a power-on reset establish the invariant from any state, for every instance. -/
def Obligations.HostMovesEstablishInvariant : Prop :=
  (∀ (cfg : Config) (inp : Memory) (exp : Nat) (s t : State),
    issueDecode cfg inp exp s = .next t → t.Inv cfg) ∧
  (∀ (cfg : Config) (s : State), (powerOn s).Inv cfg)

/-- A decode command that is accepted starts from a clean state, whatever the previous command left: BUSY, the
arguments latched, cursor 0, empty output, no latch and no error. Within IN_MAX and EXP_WIDTH (the spec's decision
D10). The model's own counter `draws` goes on (log 7). -/
def Obligations.DecodeCommandStartsClean : Prop :=
  ∀ (cfg : Config) (inp : Memory) (exp : Nat) (s : State), s.status ≠ .busy →
    (∀ m, cfg.inMax = some m → inp.length ≤ m) → exp < 2 ^ cfg.expWidth →
    issueDecode cfg inp exp s = .next
      { State.reset with
        status := .busy, inp := some inp, exp := some exp, cur := some 0, out := some [], draws := s.draws }

/-- When a decode command is refused: while one is running (the spec's decision D13), when it is longer than IN_MAX and
when its expected length is wider than EXP_WIDTH (D10). -/
def Obligations.DecodeCommandRefusals : Prop :=
  ∀ (cfg : Config) (inp : Memory) (exp : Nat) (s : State),
    (s.status = .busy → issueDecode cfg inp exp s = .refused .commandWhileBusy) ∧
    (s.status ≠ .busy → ∀ m, cfg.inMax = some m → m < inp.length →
      issueDecode cfg inp exp s = .refused .inputTooLong) ∧
    (s.status ≠ .busy → (∀ m, cfg.inMax = some m → inp.length ≤ m) → 2 ^ cfg.expWidth ≤ exp →
      issueDecode cfg inp exp s = .refused .expectedLengthTooWide)

/-- A reset, during a command too, leaves IDLE, no result and no error; `out` holds no value, so the host cannot read
it. The spec's decisions D19 and D20. -/
def Obligations.ResetAbandonsCommand : Prop :=
  ∀ s : State, (powerOn s).status = .idle ∧ (powerOn s).out = none ∧ (powerOn s).errKind = none ∧
    (powerOn s).errPos = none ∧ (powerOn s).latchesEmpty ∧
    hostReadOut (powerOn s) = .fault (.unspecifiedAfterReset .out)

/-- The host's reads of the output: refused while BUSY (the spec's decision D13; for the length also log 11), the whole
result once DONE, and no value at IDLE and ERROR (10_state.md R33, 60_exceptions.md R172: decisions D19 and D18). The
two last are for states that meet the invariant, which rules out an output that no run leaves there. -/
def Obligations.HostReadsOutputOnlyWhenDone : Prop :=
  ∀ s : State,
    (s.status = .busy → hostReadOut s = .refused .outputWhileBusy ∧ hostReadOutLength s = .refused .outputWhileBusy) ∧
    (∀ out, s.status = .done → s.out = some out →
      hostReadOut s = .next out ∧ hostReadOutLength s = .next out.length) ∧
    ∀ cfg : Config, s.Inv cfg →
      (s.status = .done → ∃ out, s.out = some out) ∧
      (s.status = .idle → hostReadOut s = .fault (.unspecifiedAfterReset .out) ∧
        hostReadOutLength s = .fault (.unspecifiedAfterReset .out)) ∧
      (s.status = .error → hostReadOut s = .fault .outputAfterError ∧ hostReadOutLength s = .fault .outputAfterError)

/-- What the host reads of a command's arguments (10_state.md R21, R22, R32): what it gave, at every point of the
command's run and after its end (the latter is log 17); and no value at IDLE, where there is no command (the spec's
decision D19). -/
def Obligations.HostReadsCommandArguments : Prop :=
  (∀ (cfg : Config) (inp : Memory) (exp k : Nat) (s t u : State), issueDecode cfg inp exp s = .next t →
    runWith cfg k t = .next u →
    hostReadExp u = .next exp ∧ hostReadInput u = .next inp ∧ hostReadInputLength u = .next inp.length) ∧
  (∀ (cfg : Config) (s : State), s.Inv cfg → s.status = .idle →
    hostReadExp s = .fault (.unspecifiedAfterReset .exp) ∧ hostReadInput s = .fault (.unspecifiedAfterReset .inp) ∧
    hostReadInputLength s = .fault (.unspecifiedAfterReset .inp))

/-- The error registers as the host reads them: a value exactly when ERROR (10_state.md R26, R33), and then one of the
codes 1 to 3, the third on a bounded instance only, and a stream position as (byte, bit) (the spec's decisions D6, D7,
D8, D19). For states that meet the invariant. -/
def Obligations.HostReadsErrorOnlyWhenError : Prop :=
  ∀ (cfg : Config) (s : State), s.Inv cfg →
    (s.status ≠ .error → hostReadErrKind s = .fault (.registerOutsideError .errKind) ∧
      hostReadErrPos s = .fault (.registerOutsideError .errPos)) ∧
    (s.status = .error → ∃ (inp : Memory) (code pos : Nat), s.inp = some inp ∧
      hostReadErrKind s = .next code ∧ 1 ≤ code ∧ code ≤ 3 ∧ (code = 3 → cfg.outCap ≠ none) ∧
      hostReadErrPos s = .next (pos / 8, pos % 8) ∧ pos < 8 * inp.length)

/-- The host's expected length is the four header bytes in little-endian order. -/
def Obligations.HeaderLengthIsLittleEndian : Prop :=
  ∀ h0 h1 h2 h3 : Byte, headerExpectedLength h0 h1 h2 h3 = (h3 ++ h2 ++ h1 ++ h0 : BitVec 32).toNat

/-! ## The input stream and the BitReader -/

/-- 20_memory.md R51, both bit orders. -/
def Obligations.StreamBitOrder : Prop :=
  ∀ (inp : Memory) (k : Nat), k < 8 * inp.length →
    ∃ b, memRead inp (k / 8) = some b ∧
      (bitAt .msbFirst inp k).toNat = (b.toNat >>> (7 - k % 8)) &&& 1 ∧
      (bitAt .lsbFirst inp k).toNat = (b.toNat >>> (k % 8)) &&& 1

/-- `read_bit` gives the bit at the cursor and moves it by one, fails exactly at the end of the stream, and is each of
the two field reads at width 1 (40_bitreader.md: "[derived: from rule R92 and rule R93]"). -/
def Obligations.ReadBitAgreesWithFieldReads : Prop :=
  ∀ (o : BitOrder) (inp : Memory) (cur : Nat),
    (cur < 8 * inp.length → readBit o inp cur = .ok (bitAt o inp cur).toNat (cur + 1)) ∧
    (8 * inp.length ≤ cur → readBit o inp cur = .endOfStream) ∧
    readBit o inp cur = readUIntLsbFirst o inp cur 1 ∧ readBit o inp cur = readUIntMsbFirst o inp cur 1

/-- 40_bitreader.md R92, with its example. -/
def Obligations.LsbFirstReadPutsFirstBitLowest : Prop :=
  (∀ (o : BitOrder) (inp : Memory) (cur m : Nat),
    (avail inp cur < m → readUIntLsbFirst o inp cur m = .endOfStream) ∧
    (m ≤ avail inp cur → ∃ v, readUIntLsbFirst o inp cur m = .ok v (cur + m) ∧ v < 2 ^ m ∧
      ∀ i < m, v.testBit i = bitAt o inp (cur + i))) ∧
  readUIntLsbFirst .msbFirst [0xB4, 0x0F] 0 4 = .ok 13 4 ∧
  readUIntLsbFirst .msbFirst [0xB4, 0x0F] 4 4 = .ok 2 8

/-- 40_bitreader.md R93, with its examples. -/
def Obligations.MsbFirstReadPutsFirstBitHighest : Prop :=
  (∀ (o : BitOrder) (inp : Memory) (cur m : Nat),
    (avail inp cur < m → readUIntMsbFirst o inp cur m = .endOfStream) ∧
    (m ≤ avail inp cur → ∃ v, readUIntMsbFirst o inp cur m = .ok v (cur + m) ∧ v < 2 ^ m ∧
      ∀ i < m, v.testBit (m - 1 - i) = bitAt o inp (cur + i))) ∧
  readUIntMsbFirst .msbFirst [0xB4, 0x0F] 0 4 = .ok 11 4 ∧
  readUIntMsbFirst .msbFirst [0xB4, 0x0F] 5 4 = .ok 8 9 ∧
  readUIntMsbFirst .msbFirst [0xB4, 0x0F] 6 4 = .ok 0 10

/-- 40_bitreader.md R94, with its examples (its remark on aligned bytes is the next statement). -/
def Obligations.ReadBytesIsLsbFirstPerByte : Prop :=
  (∀ (o : BitOrder) (inp : Memory) (cur k : Nat),
    (avail inp cur < 8 * k → readBytes o inp cur k = .endOfStream) ∧
    (8 * k ≤ avail inp cur → ∃ p, readBytes o inp cur k = .ok p (cur + 8 * k) ∧ p.length = k ∧
      ∀ (j : Nat) (b : Byte), p[j]? = some b → ∀ i < 8, b.getLsbD i = bitAt o inp (cur + 8 * j + i))) ∧
  readBytes .msbFirst [0xB4, 0x0F] 0 2 = .ok [0x2D, 0xF0] 16 ∧
  readBytes .msbFirst [0xB4, 0x0F] 3 1 = .ok [0x05] 11

/-- A payload byte that starts on a byte boundary is the input byte reversed under MSB_FIRST and the input byte itself
under LSB_FIRST (42_literal.md: "[derived: from 20_memory.md rule R51 and 40_bitreader.md rule R94]"). -/
def Obligations.AlignedPayloadByteIsReversed : Prop :=
  ∀ (inp : Memory) (a : Nat) (b : Byte), memRead inp a = some b →
    readBytes .lsbFirst inp (8 * a) 1 = .ok [b] (8 * a + 8) ∧
    ∃ r : Byte, readBytes .msbFirst inp (8 * a) 1 = .ok [r] (8 * a + 8) ∧
      ∀ i < 8, r.getLsbD i = b.getLsbD (7 - i)

/-! ## Encoding -/

/-- 30_encoding.md R71: the first bit alone decides the kind. -/
def Obligations.FlagIsTheWholeOpcode : Prop :=
  ∀ (cfg : Config) (inp : Memory) (cur next : Nat) (i : Instr), decodeAt cfg inp cur = .chunk i next →
    (bitAt cfg.byteBitOrder inp cur = false ↔ ∃ sel p, i = .lit sel p) ∧
    (bitAt cfg.byteBitOrder inp cur = true ↔ ∃ w off len, i = .bref w off len)

/-- 30_encoding.md R72, bit by bit: the decoder reads a literal exactly where these bits stand. -/
def Obligations.LiteralFormat : Prop :=
  ∀ (cfg : Config) (inp : Memory) (cur next : Nat) (sel : Fin 4) (p : List Byte),
    decodeAt cfg inp cur = .chunk (.lit sel p) next ↔
      next = cur + (3 + cfg.litWidths.get sel + 8 * p.length) ∧ next ≤ 8 * inp.length ∧
      p.length < 2 ^ cfg.litWidths.get sel ∧
      bitAt cfg.byteBitOrder inp cur = false ∧
      bitAt cfg.byteBitOrder inp (cur + 1) = sel.val.testBit 0 ∧
      bitAt cfg.byteBitOrder inp (cur + 2) = sel.val.testBit 1 ∧
      (∀ i < cfg.litWidths.get sel, bitAt cfg.byteBitOrder inp (cur + 3 + i) = p.length.testBit i) ∧
      ∀ (j : Nat) (b : Byte), p[j]? = some b → ∀ i < 8,
        bitAt cfg.byteBitOrder inp (cur + 3 + cfg.litWidths.get sel + 8 * j + i) = b.getLsbD i

/-- 30_encoding.md R73, bit by bit: the decoder reads a back-reference exactly where these bits stand. -/
def Obligations.BackrefFormat : Prop :=
  ∀ (cfg : Config) (inp : Memory) (cur next w off len : Nat),
    decodeAt cfg inp cur = .chunk (.bref w off len) next ↔
      next = cur + (5 + 2 * w) ∧ next ≤ 8 * inp.length ∧ w < 16 ∧ off < 2 ^ w ∧ len < 2 ^ w ∧
      bitAt cfg.byteBitOrder inp cur = true ∧
      (∀ i < 4, bitAt cfg.byteBitOrder inp (cur + 1 + i) = w.testBit (3 - i)) ∧
      (∀ i < w, bitAt cfg.byteBitOrder inp (cur + 5 + i) = off.testBit i) ∧
      ∀ i < w, bitAt cfg.byteBitOrder inp (cur + 5 + w + i) = len.testBit i

/-- Every well-formed chunk, encoded anywhere in a stream and packed into bytes, is decoded again with every operand, in
both bit orders, for every width table and whatever stands around it. -/
def Obligations.DecodeEncodeAgree : Prop :=
  ∀ (cfg : Config) (i : Instr) (before after : List Bool) (pad : Bool), i.wf cfg = true →
    decodeAt cfg (packBits cfg.byteBitOrder pad (before ++ (encode cfg i ++ after))) before.length
      = .chunk i (before.length + (encode cfg i).length)

/-- Chunk lengths of the engine (30_encoding.md section 2: "[derived: from rule R72, rule R73 and rule R74]"; the widths
are the spec's decision D3): the bounds, and that each is met. -/
def Obligations.ChunkLengthBounds : Prop :=
  (∀ i : Instr, i.wf engineConfig = true → (encode engineConfig i).length = chunkBits engineConfig i ∧
    5 ≤ chunkBits engineConfig i ∧ chunkBits engineConfig i ≤ 524299) ∧
  (∀ w off len, (Instr.bref w off len).wf engineConfig = true → chunkBits engineConfig (.bref w off len) ≤ 35) ∧
  (∀ sel p, 7 ≤ chunkBits engineConfig (.lit sel p)) ∧
  (∃ p, (Instr.lit 3 p).wf engineConfig = true ∧ chunkBits engineConfig (.lit 3 p) = 524299) ∧
  chunkBits engineConfig (.lit 0 []) = 7 ∧ chunkBits engineConfig (.bref 0 0 0) = 5 ∧
  chunkBits engineConfig (.bref 15 1 1) = 35

/-- Every bit pattern decodes: where enough bits for the longest chunk remain, whatever they are, a well-formed chunk
stands there (30_encoding.md section 3: "[derived: from rule R71 to rule R74]"). -/
def Obligations.EveryPatternDecodes : Prop :=
  ∀ (inp : Memory) (cur : Nat), 524299 ≤ avail inp cur →
    ∃ i next, decodeAt engineConfig inp cur = .chunk i next ∧ i.wf engineConfig = true

/-- Words written out from the spec's formats: its worked encoding, the chunks of its vectors L2 and B8. -/
def Obligations.KnownWordsDecode : Prop :=
  decodeAt engineConfig [0x19, 0x00, 0x81, 0x81, 0x4C, 0x40] 0 = .chunk (.lit 0 [0x01, 0x02, 0x03]) 31 ∧
  decodeAt engineConfig [0x19, 0x00, 0x81, 0x81, 0x4C, 0x40] 31 = .chunk (.bref 4 3 2) 44 ∧
  decodeAt engineConfig [0x70, 0x00, 0x18, 0x60] 0 = .chunk (.lit 3 [0xC3]) 27 ∧
  decodeAt engineConfig [0x8E] 0 = .chunk (.bref 1 1 1) 7

/-- Every table word is a well-formed chunk, and placed in any state it is the chunk the next step runs (log 5,
log 12). -/
def Obligations.TableWordIsRunNext : Prop :=
  ∀ (s : State) (nbits w : Nat), ∃ i, decodeTableWord nbits w = some i ∧ i.wf engineConfig = true ∧
    step (s.withFetchWord nbits w) = exec i (s.withFetchWord nbits w)

/-! ## The two chunks -/

/-- LIT completes in every running command, on every operand: it appends the payload in order, moves the cursor past the
chunk and changes nothing else (OUT_CAP = ∞ is the spec's decision D8). -/
def Obligations.LiteralAppendsPayload : Prop :=
  ∀ (sel : Fin 4) (p : List Byte) (s : State) (cs : Nat) (out : Memory),
    s.status = .busy → s.cur = some cs → s.out = some out →
    exec (.lit sel p) s = .next
      { s with
        cur := some (cs + (3 + engineConfig.litWidths.get sel + 8 * p.length)), out := some (out ++ p),
        cs := none, flag := none, sel := none, n := none, w := none, off := none, len := none, src := none }

/-- BREF completes on every legal offset: byte i it appends is byte `src + (i mod off)` of the output as it stood at the
start of the chunk, the cursor moves past the chunk and nothing else changes (43_backref.md R154, "[derived: from rule
R150, rule R151, rule R152 and rule R153]"; D8). -/
def Obligations.BackrefRepeatsLastBytes : Prop :=
  ∀ (w off len : Nat) (s : State) (cs : Nat) (out : Memory),
    s.status = .busy → s.cur = some cs → s.out = some out → 1 ≤ off → off ≤ out.length →
    ∃ p : List Byte, p.length = len ∧ (∀ i < len, p[i]? = out[out.length - off + i % off]?) ∧
      exec (.bref w off len) s = .next
        { s with
          cur := some (cs + (5 + 2 * w)), out := some (out ++ p),
          cs := none, flag := none, sel := none, n := none, w := none, off := none, len := none, src := none }

/-- 43_backref.md R152 and R153: the copy starts at `src = L0 − off`, and byte i appended equals the byte at `src + i` of
the output as it has grown, which is always in range (the range is marked "[derived: from rule R152]" in R153). That
every legal offset completes is the spec's decision D8. -/
def Obligations.BackrefCopiesSequentially : Prop :=
  ∀ (w off len : Nat) (s : State) (cs : Nat) (out : Memory),
    s.status = .busy → s.cur = some cs → s.out = some out → 1 ≤ off → off ≤ out.length →
    ∃ t out', exec (.bref w off len) s = .next t ∧ t.out = some out' ∧ out'.length = out.length + len ∧
      (∀ a < out.length, outRead out' a = outRead out a) ∧
      out.length - off ≤ out.length - 1 ∧
      ∀ i < len, out.length - off + i < out.length + i ∧
        outRead out' (out.length + i) = outRead out' (out.length - off + i)

/-- An offset of 0 or before the start of the output: nothing is appended, and the command enters the error
InvalidBackreference at the chunk's start (the check after both reads is the spec's decision D5, the position D6, the
lost output D18). -/
def Obligations.IllegalOffsetRaises : Prop :=
  ∀ (w off len : Nat) (s : State) (cs : Nat) (out : Memory),
    s.status = .busy → s.cur = some cs → s.out = some out → off = 0 ∨ out.length < off →
    exec (.bref w off len) s = .next (s.failed .invalidBackreference cs (cs + (5 + 2 * w)))

/-- A bounded instance raises CapacityExceeded exactly when a chunk's bytes do not fit OUT_CAP, and completes otherwise
(the spec's decision D8); an illegal offset is InvalidBackreference whatever OUT_CAP, since it is met first
(60_exceptions.md R175; D5). The position is D6, the lost output D18, the cursor at the chunk's end log 19, the empty
latches log 8. -/
def Obligations.CapacityExceededExactlyWhenFull : Prop :=
  ∀ (cfg : Config) (c : Nat) (s : State) (cs : Nat) (out : Memory), cfg.outCap = some c → out.length ≤ c →
    s.status = .busy → s.cur = some cs → s.out = some out →
    (∀ sel p, literalChunk cfg sel p s =
      if out.length + p.length ≤ c then .next (s.completed (cs + literalBits cfg sel p.length) (out ++ p))
      else .next (s.failed .capacityExceeded cs (cs + literalBits cfg sel p.length))) ∧
    (∀ w off len, backrefChunk cfg w off len s =
      if off = 0 ∨ out.length < off then .next (s.failed .invalidBackreference cs (cs + backrefBits w))
      else if out.length + len ≤ c then .next (s.completed (cs + backrefBits w) (out ++ copiedBytes out off len))
      else .next (s.failed .capacityExceeded cs (cs + backrefBits w)))

/-- The frame of both chunks, when exec answers a next state: the input, EXP and the model's counter never change; the
cursor moves by the chunk's length; no latch is left. If the command goes on, the error registers are unchanged, and
every address of the output outside the appended bytes reads as before. If it does not, the chunk was a
back-reference, and the only other changes are those of the error entry. -/
def Obligations.ChunkFrame : Prop :=
  ∀ (i : Instr) (s t : State) (cs : Nat) (out : Memory),
    s.cur = some cs → s.out = some out → exec i s = .next t →
    t.inp = s.inp ∧ t.exp = s.exp ∧ t.draws = s.draws ∧ t.cur = some (cs + chunkBits engineConfig i) ∧
    t.latchesEmpty ∧
    (t.status = .busy → t.errKind = s.errKind ∧ t.errPos = s.errPos ∧
      ∃ out', t.out = some out' ∧ out'.length = out.length + appendedBytes i ∧
        ∀ a, ¬ (out.length ≤ a ∧ a < out.length + appendedBytes i) → outRead out' a = outRead out a) ∧
    (t.status ≠ .busy → (∃ w off len, i = .bref w off len) ∧ t.status = .error ∧ t.out = none ∧
      t.errKind = some .invalidBackreference ∧ t.errPos = some cs)

/-- A chunk body reads neither EXP nor the input nor an error register: changing them before it changes nothing else
after it. What was put there is still there, but for the error registers after an error, which its entry writes
(42_literal.md R130 "`|out|` and EXP are not read inside the chunk", 43_backref.md R154, 41_dispatch.md R116). -/
def Obligations.ChunkDoesNotReadExpectedLength : Prop :=
  ∀ (i : Instr) (s t : State) (exp : Option Nat) (inp : Option Memory) (kind : Option ErrKind) (pos : Option Nat),
    exec i s = .next t →
    exec i { s with exp := exp, inp := inp, errKind := kind, errPos := pos } = .next
      (if t.status = .busy then { t with exp := exp, inp := inp, errKind := kind, errPos := pos }
       else { t with exp := exp, inp := inp })

/-- No chunk body runs outside a command: the model's choice, log 9. -/
def Obligations.ChunkOutsideCommandFaults : Prop :=
  ∀ (i : Instr) (s : State), s.status ≠ .busy → exec i s = .fault .noCommand

/-! ## The step -/

/-- A step of a running command whose output is short of EXP runs the chunk that is decoded at the cursor, and adds
nothing around it. -/
def Obligations.StepRunsDecodedChunk : Prop :=
  ∀ (s : State) (inp : Memory) (exp cur next : Nat) (out : Memory) (i : Instr),
    s.status = .busy → s.inp = some inp → s.exp = some exp → s.cur = some cur → s.out = some out →
    out.length < exp → decodeAt engineConfig inp cur = .chunk i next → step s = exec i s

/-- Once the output has reached EXP the command finishes, whatever stands in the stream: no bit is read and nothing but
`status` changes (the place of the check is the spec's decision D4). -/
def Obligations.FinishAtExpectedLength : Prop :=
  ∀ (s : State) (exp : Nat) (out : Memory), s.status = .busy → s.exp = some exp → s.out = some out →
    exp ≤ out.length → step s = .next { s with status := .done }

/-- 41_dispatch.md R113: end of stream at the flag finishes the command normally with the output as it stands, and with
the output short of EXP nothing else does. That the cursor and the latches stay as they are is log 15 and log 8. -/
def Obligations.StreamEndAtFlagFinishes : Prop :=
  ∀ (s : State) (inp : Memory) (exp cur : Nat) (out : Memory),
    s.status = .busy → s.inp = some inp → s.exp = some exp → s.cur = some cur → s.out = some out →
    out.length < exp →
    (8 * inp.length ≤ cur → step s = .next { s with status := .done }) ∧
    (∀ t, step s = .next t → t.status = .done → 8 * inp.length ≤ cur)

/-- 60_exceptions.md R171: a chunk whose announced fields do not all fit in what remains of the stream is cut; the
command enters TruncatedChunk at the chunk's start exactly then. What follows the first missing field is not
announced, so the conditions are alternatives. The cursor is left free within the stream (log 6); the position is the
spec's decision D6 and the entry's other writes D18. -/
def Obligations.CutChunkRaisesTruncated : Prop :=
  ∀ (s : State) (inp : Memory) (exp cs : Nat) (out : Memory),
    s.status = .busy → s.inp = some inp → s.exp = some exp → s.cur = some cs → s.out = some out →
    out.length < exp → cs < 8 * inp.length →
    let o := engineConfig.byteBitOrder
    let left := 8 * inp.length - cs
    let width := engineConfig.litWidths.get (selectorOf (lsbFirst (bitsAt o inp (cs + 1) 2)))
    let n := lsbFirst (bitsAt o inp (cs + 3) width)
    let w := msbFirst (bitsAt o inp (cs + 1) 4)
    let cut := if bitAt o inp cs then left < 5 ∨ left < 5 + 2 * w
      else left < 3 ∨ left < 3 + width ∨ left < 3 + width + 8 * n
    (cut → ∃ cur, cs < cur ∧ cur ≤ 8 * inp.length ∧
      step s = .next (s.cutShort cs cur)) ∧
    (∀ t, step s = .next t → t.status = .error → t.errKind = some .truncatedChunk → cut)

/-- When IDLE, DONE or ERROR the engine takes no step: the state stays until the host's next move (41_dispatch.md R114,
60_exceptions.md R177; that the model writes it as a step to the same state is log 4). -/
def Obligations.EngineAtRestStays : Prop :=
  ∀ s : State, s.status ≠ .busy → step s = .next s

/-- A step that ends in ERROR has recorded one of the two kinds an unbounded engine has, and the start of the chunk as
position; the host reads them as code 1 or 2 and as (byte, bit), and no output (the spec's decisions D6, D7, D18). -/
def Obligations.ErrorRecordsKindAndChunkStart : Prop :=
  ∀ s t : State, s.status = .busy → step s = .next t → t.status = .error →
    ∃ kind cs, s.cur = some cs ∧ t.errKind = some kind ∧ t.errPos = some cs ∧
      (kind = .truncatedChunk ∧ hostReadErrKind t = .next 1 ∨
        kind = .invalidBackreference ∧ hostReadErrKind t = .next 2) ∧
      hostReadErrPos t = .next (cs / 8, cs % 8) ∧ hostReadOut t = .fault .outputAfterError ∧
      t.inp = s.inp ∧ t.exp = s.exp ∧ t.latchesEmpty

/-- 20_memory.md R53: an append writes one byte at address |out| and grows the space by one; a read has a value exactly
below |out|; and no step writes an address below |out| a second time. -/
def Obligations.OutputIsAppendOnly : Prop :=
  (∀ (out : Memory) (v : Byte), ∃ out', outAppend none out v = some out' ∧ out'.length = out.length + 1 ∧
    outRead out' out.length = some v ∧ ∀ a < out.length, outRead out' a = outRead out a) ∧
  (∀ (out : Memory) (a : Nat), (∃ v, outRead out a = some v) ↔ a < out.length) ∧
  (∀ (s t : State) (out out' : Memory), step s = .next t → s.out = some out → t.out = some out' →
    out <+: out' ∧ ∀ a < out.length, outRead out' a = outRead out a)

/-- A step that leaves the command running has consumed exactly one chunk, from the cursor to where the next one starts,
and has appended exactly what that chunk expands to. -/
def Obligations.RunningStepIsOneChunk : Prop :=
  ∀ (s t : State) (inp : Memory) (exp cur : Nat) (out : Memory),
    s.status = .busy → s.inp = some inp → s.exp = some exp → s.cur = some cur → s.out = some out →
    step s = .next t → t.status = .busy →
    ∃ i, out.length < exp ∧ decodeAt engineConfig inp cur = .chunk i (cur + chunkBits engineConfig i) ∧
      t.cur = some (cur + chunkBits engineConfig i) ∧ t.out = expandChunk out i

/-- That any 1 to 7 bits left before EXP is reached end in TruncatedChunk: the sentence of 30_encoding.md R78 and
70_reset_and_hazards.md R196 (both marked derived) if it were read by the count of the bits alone. EXPECTED TO FAIL:
five to seven bits can hold a whole chunk, such as `0 00 0000`, which is then the last chunk of the stream (log 13). -/
def Obligations.TrailingBitsAlwaysTruncate : Prop :=
  ∀ (s : State) (inp : Memory) (exp cur : Nat) (out : Memory), s.Inv engineConfig →
    s.status = .busy → s.inp = some inp → s.exp = some exp → s.cur = some cur → s.out = some out →
    out.length < exp → cur < 8 * inp.length → 8 * inp.length ≤ cur + 7 →
    ∃ t, step s = .next t ∧ t.status = .error ∧ t.errKind = some .truncatedChunk

/-- What does hold of trailing bits: one to four of them cannot hold a chunk, so they end in TruncatedChunk (log 13). -/
def Obligations.UpToFourTrailingBitsTruncate : Prop :=
  ∀ (s : State) (inp : Memory) (exp cur : Nat) (out : Memory),
    s.status = .busy → s.inp = some inp → s.exp = some exp → s.cur = some cur → s.out = some out →
    out.length < exp → cur < 8 * inp.length → 8 * inp.length ≤ cur + 4 →
    ∃ t, step s = .next t ∧ t.status = .error ∧ t.errKind = some .truncatedChunk ∧ t.errPos = some cur

/-- What 1 to 7 bits left before EXP is reached do, pattern by pattern (log 13). Where they begin with no whole chunk,
that chunk cannot complete, and the command ends in TruncatedChunk at the boundary (30_encoding.md R78,
70_reset_and_hazards.md R196). Three patterns begin with a whole chunk, which runs as R77 and R115 say: seven zeros are
`LIT 0 []`, `1 0000` is a back-reference with offset 0, and seven bits `1 0001 o l` are `BREF 1 o l`. In the clause for
`1 0000` the cursor at the chunk's end is log 19, the position the spec's decision D6, the lost output D18 and the
error after both reads D5; the latches, empty after each chunk, are log 8; the widths are D3. -/
def Obligations.TrailingBitsByPattern : Prop :=
  ∀ (s : State) (inp : Memory) (exp cur : Nat) (out : Memory),
    s.status = .busy → s.inp = some inp → s.exp = some exp → s.cur = some cur → s.out = some out →
    out.length < exp → cur < 8 * inp.length → 8 * inp.length ≤ cur + 7 →
    let bits := bitsAt engineConfig.byteBitOrder inp cur (8 * inp.length - cur)
    if bits = List.replicate 7 false then step s = .next (s.completed (8 * inp.length) out)
    else if bits.take 5 = [true, false, false, false, false] then
      step s = .next (s.failed .invalidBackreference cur (cur + 5))
    else if bits.take 5 = [true, false, false, false, true] ∧ bits.length = 7 then
      step s = exec (.bref 1 (bits.getD 5 false).toNat (bits.getD 6 false).toNat) s
    else ∃ t, step s = .next t ∧ t.status = .error ∧ t.errKind = some .truncatedChunk ∧ t.errPos = some cur

/-! ## Whole commands -/

/-- Every command ends: within ⌊8N/3⌋ + 1 steps the engine is DONE or in ERROR (41_dispatch.md section 3: "[derived: from
30_encoding.md rule R75 and 40_bitreader.md rule R95]"). -/
def Obligations.EveryCommandEnds : Prop :=
  ∀ (inp : Memory) (exp : Nat) (s t : State), issueDecode engineConfig inp exp s = .next t →
    ∃ u, runWith engineConfig (8 * inp.length / 3 + 1) t = .next u ∧ (u.status = .done ∨ u.status = .error)

/-- 40_bitreader.md R98: every read that answers consumes exactly the bits up to its new cursor; and a command that
finishes normally has consumed exactly the encodings of a list of well-formed chunks, one after the other from bit 0,
its cursor is the sum of their lengths, its result is what they expand to, and it stopped at the first boundary at
which EXP was reached (the spec's decision D4) or the stream had ended. That the cursor stands at 8N then is log 15. -/
def Obligations.FinishedCommandConsumedWholeChunks : Prop :=
  (∀ (o : BitOrder) (inp : Memory) (cur m v c : Nat),
    (readBit o inp cur = .ok v c → c = cur + 1) ∧
    (readUIntLsbFirst o inp cur m = .ok v c → c = cur + m) ∧
    (readUIntMsbFirst o inp cur m = .ok v c → c = cur + m) ∧
    ∀ p, readBytes o inp cur m = .ok p c → c = cur + 8 * m) ∧
  (∀ (inp : Memory) (exp k : Nat) (s t u : State), issueDecode engineConfig inp exp s = .next t →
    runWith engineConfig k t = .next u → u.status = .done →
    ∃ (prog : List Instr) (out : Memory), (∀ i ∈ prog, i.wf engineConfig = true) ∧
      u.cur = some (programBits engineConfig prog) ∧ programBits engineConfig prog ≤ 8 * inp.length ∧
      bitsAt engineConfig.byteBitOrder inp 0 (programBits engineConfig prog) = encodeProgram engineConfig prog ∧
      expandProgram [] prog = some out ∧ u.out = some out ∧
      (∀ j < prog.length, ∀ o, expandProgram [] (prog.take j) = some o → o.length < exp) ∧
      (exp ≤ out.length ∨ programBits engineConfig prog = 8 * inp.length))

/-- A command that ends in ERROR names its first bad chunk: a list of well-formed chunks stands before the reported
position and expands to less than EXP, and at that position the chunk is cut (TruncatedChunk) or is a back-reference
whose offset is illegal for that output (InvalidBackreference). The meaning of the position is the spec's decision
D6. -/
def Obligations.ErrorNamesFirstBadChunk : Prop :=
  ∀ (inp : Memory) (exp k : Nat) (s t u : State), issueDecode engineConfig inp exp s = .next t →
    runWith engineConfig k t = .next u → u.status = .error →
    ∃ (prog : List Instr) (out : Memory), (∀ i ∈ prog, i.wf engineConfig = true) ∧
      u.errPos = some (programBits engineConfig prog) ∧ programBits engineConfig prog < 8 * inp.length ∧
      bitsAt engineConfig.byteBitOrder inp 0 (programBits engineConfig prog) = encodeProgram engineConfig prog ∧
      expandProgram [] prog = some out ∧ out.length < exp ∧
      ((u.errKind = some .truncatedChunk ∧
          ∃ f, decodeAt engineConfig inp (programBits engineConfig prog) = .truncated f) ∨
        (u.errKind = some .invalidBackreference ∧
          ∃ w off len next, decodeAt engineConfig inp (programBits engineConfig prog) = .chunk (.bref w off len) next ∧
            (off = 0 ∨ out.length < off)))

/-- Decompression is correct: any list of well-formed chunks that expands to `out`, packed into bytes with anything after
it, and decoded with an EXP that its last chunk is the first to reach, ends DONE with exactly `out` and the cursor at
the end of the last chunk. For every unbounded instance, so in both bit orders and for every width table. -/
def Obligations.ProgramDecodesToItsExpansion : Prop :=
  ∀ (cfg : Config) (prog : List Instr) (after : List Bool) (pad : Bool) (out : Memory) (exp : Nat) (s : State),
    cfg.outCap = none → cfg.inMax = none → exp < 2 ^ cfg.expWidth → s.status ≠ .busy →
    (∀ i ∈ prog, i.wf cfg = true) → expandProgram [] prog = some out → exp ≤ out.length →
    (∀ j < prog.length, ∀ o, expandProgram [] (prog.take j) = some o → o.length < exp) →
    ∃ t u, issueDecode cfg (packBits cfg.byteBitOrder pad (encodeProgram cfg prog ++ after)) exp s = .next t ∧
      runWith cfg (prog.length + 1) t = .next u ∧
      u.status = .done ∧ u.out = some out ∧ u.cur = some (programBits cfg prog)

/-- Graceful truncation: a list of chunks that fills its last byte exactly and expands to fewer bytes than EXP ends DONE
with the short output (41_dispatch.md R113, 70_reset_and_hazards.md R196; the cursor is log 15). -/
def Obligations.ShortProgramEndsGracefully : Prop :=
  ∀ (prog : List Instr) (pad : Bool) (out : Memory) (exp : Nat) (s : State),
    exp < 2 ^ 32 → s.status ≠ .busy → (∀ i ∈ prog, i.wf engineConfig = true) →
    expandProgram [] prog = some out → out.length < exp → programBits engineConfig prog % 8 = 0 →
    ∃ t u, issueDecode engineConfig (packBits engineConfig.byteBitOrder pad (encodeProgram engineConfig prog)) exp s
        = .next t ∧
      runWith engineConfig (prog.length + 1) t = .next u ∧
      u.status = .done ∧ u.out = some out ∧ shortResult out exp = true ∧
      u.cur = some (programBits engineConfig prog)

/-- The trailing-bit hazard (70_reset_and_hazards.md R196, 30_encoding.md R78): a list of chunks that does not fill its
last byte, expands to fewer bytes than EXP and is padded with ones or zeros ends in TruncatedChunk where the padding
begins, and the output is lost. The one padding that is itself a chunk is seven zeros, the literal `0 00 0000`; the
command then ends DONE with the short output at the stream's last bit (log 13, log 15). The position is the spec's
decision D6, the lost output D18. -/
def Obligations.PaddedShortProgramTruncates : Prop :=
  ∀ (prog : List Instr) (pad : Bool) (out : Memory) (exp : Nat) (s : State),
    exp < 2 ^ 32 → s.status ≠ .busy → (∀ i ∈ prog, i.wf engineConfig = true) →
    expandProgram [] prog = some out → out.length < exp → programBits engineConfig prog % 8 ≠ 0 →
    ∃ t, issueDecode engineConfig (packBits engineConfig.byteBitOrder pad (encodeProgram engineConfig prog)) exp s
        = .next t ∧
      (¬ (pad = false ∧ programBits engineConfig prog % 8 = 1) →
        ∃ u, runWith engineConfig (prog.length + 1) t = .next u ∧ u.status = .error ∧
          u.errKind = some .truncatedChunk ∧ u.errPos = some (programBits engineConfig prog) ∧ u.out = none) ∧
      (pad = false ∧ programBits engineConfig prog % 8 = 1 →
        ∃ u, runWith engineConfig (prog.length + 2) t = .next u ∧ u.status = .done ∧ u.out = some out ∧
          u.cur = some (programBits engineConfig prog + 7))

/-- 41_dispatch.md R118: the outcome of a command is a function of (IN, EXP) and the parameters alone. Whatever two
earlier histories left in the engine, after any number of steps the same command shows the same status, result
bytes, error kind and error position. -/
def Obligations.OutcomeIgnoresThePast : Prop :=
  ∀ (cfg : Config) (inp : Memory) (exp k : Nat) (s₁ s₂ t₁ t₂ : State),
    issueDecode cfg inp exp s₁ = .next t₁ → issueDecode cfg inp exp s₂ = .next t₂ →
    ∃ u₁ u₂, runWith cfg k t₁ = .next u₁ ∧ runWith cfg k t₂ = .next u₂ ∧ u₁.observe = u₂.observe

/-- The result is longer than EXP by less than one chunk: at most EXP − 1 + 65535 bytes, and none for EXP = 0
(41_dispatch.md R116, "[derived: from this rule, 00_scope.md rule R7]"; 65535 is for the width table of the spec's
decision D3). -/
def Obligations.OvershootIsBounded : Prop :=
  ∀ (inp : Memory) (exp k : Nat) (s t u : State) (out : Memory), issueDecode engineConfig inp exp s = .next t →
    runWith engineConfig k t = .next u → u.out = some out →
    (exp = 0 → out = []) ∧ (1 ≤ exp → out.length ≤ exp - 1 + 65535)
end

