-- ==== Sys2Proof/Laws/Bits.lean ====
section
/-! SUPPORT. The two field assemblies and their inverses, and what the bits of a packed stream are. -/

namespace Sys2Proof.Machine

/-! ## Assembly -/

theorem lsbFirst_lt (bs : List Bool) : lsbFirst bs < 2 ^ bs.length := by
  induction bs with
  | nil => simp [lsbFirst]
  | cons b bs ih =>
    have : b.toNat ≤ 1 := Bool.toNat_le b
    simp only [lsbFirst, List.length_cons, pow_succ]
    omega

/-- Bit i of an lsb-first field is the i-th bit read (40_bitreader.md R92). -/
theorem testBit_lsbFirst (bs : List Bool) (i : Nat) : (lsbFirst bs).testBit i = bs.getD i false := by
  induction bs generalizing i with
  | nil => simp [lsbFirst]
  | cons b bs ih =>
    cases i with
    | zero => cases b <;> simp [lsbFirst, Nat.testBit_zero]
    | succ i =>
      have hb : b.toNat ≤ 1 := Bool.toNat_le b
      have : (b.toNat + 2 * lsbFirst bs) / 2 = lsbFirst bs := by omega
      simp [lsbFirst, Nat.testBit_succ, this, ih]

theorem msbFirst_eq (bs : List Bool) : msbFirst bs = lsbFirst bs.reverse := by
  have hsnoc : ∀ (l : List Bool) (b : Bool), lsbFirst (l ++ [b]) = lsbFirst l + b.toNat * 2 ^ l.length := by
    intro l b
    induction l with
    | nil => simp [lsbFirst]
    | cons c l ih => simp only [List.cons_append, lsbFirst, ih, List.length_cons, pow_succ]; ring
  induction bs with
  | nil => rfl
  | cons b bs ih => simp only [msbFirst, List.reverse_cons, hsnoc, ih, List.length_reverse]; ring

theorem msbFirst_lt (bs : List Bool) : msbFirst bs < 2 ^ bs.length := by
  simpa [msbFirst_eq] using lsbFirst_lt bs.reverse

/-- Bit m−1−i of an msb-first field of m bits is the i-th bit read (40_bitreader.md R93). -/
theorem testBit_msbFirst (bs : List Bool) {i : Nat} (h : i < bs.length) :
    (msbFirst bs).testBit (bs.length - 1 - i) = bs.getD i false := by
  rw [msbFirst_eq, testBit_lsbFirst, List.getD_eq_getElem?_getD, List.getElem?_reverse (by omega),
    List.getD_eq_getElem?_getD]
  congr 2
  omega

/-! ## Writing a field -/

@[simp] theorem length_lsbBits (m v : Nat) : (lsbBits m v).length = m := by simp [lsbBits]

@[simp] theorem length_msbBits (m v : Nat) : (msbBits m v).length = m := by simp [msbBits]

theorem getElem_lsbBits (m v i : Nat) (h : i < (lsbBits m v).length) : (lsbBits m v)[i] = v.testBit i := by
  simp [lsbBits]

/-- A field of m bits written and read lsb-first comes back. -/
theorem lsbFirst_lsbBits {m v : Nat} (h : v < 2 ^ m) : lsbFirst (lsbBits m v) = v := by
  apply Nat.eq_of_testBit_eq
  intro i
  rw [testBit_lsbFirst, List.getD_eq_getElem?_getD]
  by_cases hi : i < m
  · simp [lsbBits, hi]
  · have : v.testBit i = false := Nat.testBit_lt_two_pow (lt_of_lt_of_le h (Nat.pow_le_pow_right (by omega) (by omega)))
    simp [lsbBits, hi, this]

theorem msbBits_eq (m v : Nat) : msbBits m v = (lsbBits m v).reverse := by
  apply List.ext_getElem
  · simp
  · intro i h1 h2
    simp [msbBits, lsbBits]

/-- A field of m bits written and read msb-first comes back. -/
theorem msbFirst_msbBits {m v : Nat} (h : v < 2 ^ m) : msbFirst (msbBits m v) = v := by
  rw [msbFirst_eq, msbBits_eq, List.reverse_reverse, lsbFirst_lsbBits h]

/-- A field of as many bits as it has, read and written again, is itself. -/
theorem lsbBits_lsbFirst (bs : List Bool) : lsbBits bs.length (lsbFirst bs) = bs := by
  apply List.ext_getElem
  · simp
  · intro i h1 h2
    simp [lsbBits, testBit_lsbFirst, h2]

theorem msbBits_msbFirst (bs : List Bool) : msbBits bs.length (msbFirst bs) = bs := by
  have := lsbBits_lsbFirst bs.reverse
  rw [List.length_reverse] at this
  rw [msbBits_eq, msbFirst_eq, this, List.reverse_reverse]

/-! ## The stream of a packed list of bits -/

@[simp] theorem length_packBits (order : BitOrder) (pad : Bool) (bits : List Bool) :
    (packBits order pad bits).length = (bits.length + 7) / 8 := by
  simp [packBits]

/-- The i-th bit consumed of a byte made of 8 bits is the i-th of them (30_encoding.md R80). -/
theorem consumedBit_byteOfBits (order : BitOrder) (bits : List Bool) (h : bits.length = 8) {i : Nat} (hi : i < 8) :
    consumedBit order (byteOfBits order bits) i = bits.getD i false := by
  cases order with
  | msbFirst =>
    have hlt := msbFirst_lt bits
    have ht := testBit_msbFirst bits (i := i) (by omega)
    rw [h] at hlt ht
    rw [consumedBit, byteOfBits, BitVec.getLsbD, BitVec.toNat_ofNat, Nat.mod_eq_of_lt (by omega), ← ht]
  | lsbFirst =>
    have hlt := lsbFirst_lt bits
    rw [h] at hlt
    rw [consumedBit, byteOfBits, BitVec.getLsbD, BitVec.toNat_ofNat, Nat.mod_eq_of_lt (by omega), testBit_lsbFirst]

/-- Stream bit k of a packed list of bits is its element k, and a padding bit after its end. -/
theorem bitAt_packBits (order : BitOrder) (pad : Bool) (bits : List Bool) {k : Nat}
    (hk : k < 8 * (packBits order pad bits).length) :
    bitAt order (packBits order pad bits) k = bits.getD k pad := by
  rw [length_packBits] at hk
  have hj : k / 8 < (bits.length + 7) / 8 := by omega
  have hbyte : memRead (packBits order pad bits) (k / 8)
      = some (byteOfBits order ((List.range 8).map fun i => bits.getD (8 * (k / 8) + i) pad)) := by
    simp [memRead, packBits, hj]
  rw [bitAt, hbyte]
  show consumedBit order _ (k % 8) = _
  have h8 : k % 8 < 8 := Nat.mod_lt _ (by omega)
  rw [consumedBit_byteOfBits order _ (by simp) h8]
  have : 8 * (k / 8) + k % 8 = k := Nat.div_add_mod k 8
  simp [h8, this]

@[simp] theorem length_bitsAt (order : BitOrder) (inp : Memory) (cur m : Nat) : (bitsAt order inp cur m).length = m := by
  simp [bitsAt]

theorem getElem_bitsAt (order : BitOrder) (inp : Memory) (cur m i : Nat) (h : i < (bitsAt order inp cur m).length) :
    (bitsAt order inp cur m)[i] = bitAt order inp (cur + i) := by
  simp [bitsAt]

/-- Consecutive bit ranges join. -/
theorem bitsAt_add (order : BitOrder) (inp : Memory) (cur a b : Nat) :
    bitsAt order inp cur (a + b) = bitsAt order inp cur a ++ bitsAt order inp (cur + a) b := by
  apply List.ext_getElem
  · simp
  · intro i h1 h2
    rw [getElem_bitsAt, List.getElem_append]
    split
    · rw [getElem_bitsAt]
    · rename_i hlt
      rw [length_bitsAt] at hlt
      rw [getElem_bitsAt, length_bitsAt]
      congr 1
      omega

/-- The bits a list was packed from stand in the stream where the list has them. -/
theorem bitsAt_packBits (order : BitOrder) (pad : Bool) (a b c : List Bool) :
    bitsAt order (packBits order pad (a ++ (b ++ c))) a.length b.length = b := by
  apply List.ext_getElem
  · simp
  · intro i h1 h2
    rw [getElem_bitsAt, bitAt_packBits]
    · rw [List.getD_eq_getElem?_getD, List.getElem?_append_right (by omega),
        List.getElem?_append_left (by omega)]
      simp [h2]
    · simp only [length_packBits, List.length_append]
      omega

/-- At least the bits that were packed are there to read. -/
theorem le_avail_packBits (order : BitOrder) (pad : Bool) (a b c : List Bool) :
    b.length ≤ avail (packBits order pad (a ++ (b ++ c))) a.length := by
  simp only [avail, length_packBits, List.length_append]
  omega

end Sys2Proof.Machine
end

