-- ==== Sys2Proof/Laws/Reader.lean ====
section
/-! SUPPORT. When each BitReader operation answers, and with what (40_bitreader.md R91 to R95); and how a payload
written to a stream is read back. -/

namespace Sys2Proof.Machine

/-! ## The four reads -/

theorem readBit_eq_ok {o : BitOrder} {inp : Memory} {cur v c : Nat} :
    readBit o inp cur = .ok v c ↔ 1 ≤ avail inp cur ∧ (bitAt o inp cur).toNat = v ∧ cur + 1 = c := by
  rw [readBit]
  split <;> simp <;> omega

theorem readUIntLsbFirst_eq_ok {o : BitOrder} {inp : Memory} {cur m v c : Nat} :
    readUIntLsbFirst o inp cur m = .ok v c ↔
      m ≤ avail inp cur ∧ lsbFirst (bitsAt o inp cur m) = v ∧ cur + m = c := by
  rw [readUIntLsbFirst]
  split <;> simp <;> omega

theorem readUIntLsbFirst_eq_endOfStream {o : BitOrder} {inp : Memory} {cur m : Nat} :
    readUIntLsbFirst o inp cur m = .endOfStream ↔ avail inp cur < m := by
  rw [readUIntLsbFirst]
  split <;> simp <;> omega

theorem readUIntMsbFirst_eq_ok {o : BitOrder} {inp : Memory} {cur m v c : Nat} :
    readUIntMsbFirst o inp cur m = .ok v c ↔
      m ≤ avail inp cur ∧ msbFirst (bitsAt o inp cur m) = v ∧ cur + m = c := by
  rw [readUIntMsbFirst]
  split <;> simp <;> omega

theorem readUIntMsbFirst_eq_endOfStream {o : BitOrder} {inp : Memory} {cur m : Nat} :
    readUIntMsbFirst o inp cur m = .endOfStream ↔ avail inp cur < m := by
  rw [readUIntMsbFirst]
  split <;> simp <;> omega

theorem readBytes_eq_ok {o : BitOrder} {inp : Memory} {cur k c : Nat} {p : List Byte} :
    readBytes o inp cur k = .ok p c ↔
      8 * k ≤ avail inp cur ∧ ((List.range k).map fun j => payloadByte o inp (cur + 8 * j)) = p ∧ cur + 8 * k = c := by
  rw [readBytes]
  split <;> simp <;> omega

theorem readBytes_eq_endOfStream {o : BitOrder} {inp : Memory} {cur k : Nat} :
    readBytes o inp cur k = .endOfStream ↔ avail inp cur < 8 * k := by
  rw [readBytes]
  split <;> simp <;> omega

/-! ## Payload bytes -/

/-- Bit i of a payload byte is stream bit cur+i (40_bitreader.md R94). -/
theorem getLsbD_payloadByte (o : BitOrder) (inp : Memory) (cur : Nat) {i : Nat} (hi : i < 8) :
    (payloadByte o inp cur).getLsbD i = bitAt o inp (cur + i) := by
  have hlt := lsbFirst_lt (bitsAt o inp cur 8)
  rw [length_bitsAt] at hlt
  rw [payloadByte, BitVec.getLsbD, BitVec.toNat_ofNat, Nat.mod_eq_of_lt (by omega), testBit_lsbFirst,
    List.getD_eq_getElem?_getD, List.getElem?_eq_getElem (by simpa using hi), Option.getD_some, getElem_bitsAt]

/-- The bits of a payload byte, written again, are the stream's. -/
theorem lsbBits_payloadByte (o : BitOrder) (inp : Memory) (cur : Nat) :
    lsbBits 8 (payloadByte o inp cur).toNat = bitsAt o inp cur 8 := by
  have hlt := lsbFirst_lt (bitsAt o inp cur 8)
  have hb := lsbBits_lsbFirst (bitsAt o inp cur 8)
  rw [length_bitsAt] at hlt hb
  rw [payloadByte, BitVec.toNat_ofNat, Nat.mod_eq_of_lt (by omega), hb]

/-- A byte written lsb-first and read back is itself. -/
theorem payloadByte_of_bits {o : BitOrder} {inp : Memory} {cur : Nat} {b : Byte}
    (h : bitsAt o inp cur 8 = lsbBits 8 b.toNat) : payloadByte o inp cur = b := by
  rw [payloadByte, h, lsbFirst_lsbBits (by exact b.isLt)]
  exact BitVec.ofNat_toNat 8 b |>.trans (BitVec.setWidth_eq b)

/-- A payload written after another and read back is itself. -/
theorem payload_of_bits {o : BitOrder} {inp : Memory} {p : List Byte} {cur : Nat}
    (h : bitsAt o inp cur (8 * p.length) = p.flatMap fun b => lsbBits 8 b.toNat) :
    ((List.range p.length).map fun j => payloadByte o inp (cur + 8 * j)) = p := by
  induction p generalizing cur with
  | nil => rfl
  | cons b p ih =>
    rw [List.length_cons, Nat.mul_succ, Nat.add_comm (8 * p.length) 8, bitsAt_add, List.flatMap_cons] at h
    obtain ⟨h1, h2⟩ := List.append_inj h (by simp)
    rw [List.length_cons, List.range_succ_eq_map, List.map_cons, List.map_map]
    congr 1
    · simpa using payloadByte_of_bits h1
    · have := ih h2
      refine Eq.trans ?_ this
      apply List.map_congr_left
      intro j _
      show payloadByte o inp (cur + 8 * (j + 1)) = payloadByte o inp (cur + 8 + 8 * j)
      congr 1
      omega

/-- The bits of a payload that was read are the stream's. -/
theorem flatMap_payload (o : BitOrder) (inp : Memory) (cur k : Nat) :
    (((List.range k).map fun j => payloadByte o inp (cur + 8 * j)).flatMap fun b => lsbBits 8 b.toNat)
      = bitsAt o inp cur (8 * k) := by
  induction k with
  | zero => simp [bitsAt]
  | succ k ih =>
    rw [List.range_succ, List.map_append, List.flatMap_append, ih, Nat.mul_succ, bitsAt_add]
    simp [lsbBits_payloadByte]

@[simp] theorem length_flatMap_bytes (p : List Byte) :
    (p.flatMap fun b => lsbBits 8 b.toNat).length = 8 * p.length := by
  induction p with
  | nil => rfl
  | cons b p ih => rw [List.flatMap_cons, List.length_append, ih, length_lsbBits, List.length_cons]; omega

end Sys2Proof.Machine
end

