-- ==== Sys2Proof/Laws/Decode.lean ====
section
/-! SUPPORT. All that the decoder can answer (30_encoding.md R71 to R73), and the ranges of what it answers. -/

namespace Sys2Proof.Machine

/-- A value of two bits is the selector of that value. -/
theorem selectorOf_val {v : Nat} (h : v < 4) : (selectorOf v).val = v := Nat.mod_eq_of_lt h

theorem selectorOf_of_val (sel : Fin 4) : selectorOf sel.val = sel := Fin.ext (selectorOf_val sel.isLt)

/-- All that decoding a literal can answer, from the bit after its flag: cut in the selector, the count or the payload,
or whole. -/
theorem decodeLiteral_eq (cfg : Config) (inp : Memory) (cur : Nat) :
    decodeLiteral cfg inp cur =
      let o := cfg.byteBitOrder
      let sel := selectorOf (lsbFirst (bitsAt o inp cur 2))
      let width := cfg.litWidths.get sel
      let n := lsbFirst (bitsAt o inp (cur + 2) width)
      if avail inp cur < 2 then .truncated cur
      else if avail inp (cur + 2) < width then .truncated (cur + 2)
      else if avail inp (cur + 2 + width) < 8 * n then .truncated (cur + 2 + width)
      else .chunk (.lit sel ((List.range n).map fun j => payloadByte o inp (cur + 2 + width + 8 * j)))
        (cur + 2 + width + 8 * n) := by
  unfold decodeLiteral readUIntLsbFirst readBytes Config.selWidth
  by_cases h1 : avail inp cur < 2
  · simp [h1]
  · simp only [h1, if_false]
    by_cases h2 : avail inp (cur + 2) < cfg.litWidths.get (selectorOf (lsbFirst (bitsAt cfg.byteBitOrder inp cur 2)))
    · simp only [h2, if_true]
    · simp only [h2, if_false]
      split <;> rename_i h3 <;> split at h3 <;> simp_all

/-- All that decoding a back-reference can answer, from the bit after its flag: cut in the word size, the offset or
the length, or whole. -/
theorem decodeBackref_eq (cfg : Config) (inp : Memory) (cur : Nat) :
    decodeBackref cfg inp cur =
      let o := cfg.byteBitOrder
      let w := msbFirst (bitsAt o inp cur 4)
      if avail inp cur < 4 then .truncated cur
      else if avail inp (cur + 4) < w then .truncated (cur + 4)
      else if avail inp (cur + 4 + w) < w then .truncated (cur + 4 + w)
      else .chunk (.bref w (lsbFirst (bitsAt o inp (cur + 4) w)) (lsbFirst (bitsAt o inp (cur + 4 + w) w)))
        (cur + 4 + w + w) := by
  unfold decodeBackref readUIntMsbFirst readUIntLsbFirst Config.wordSizeWidth
  by_cases h1 : avail inp cur < 4
  · simp [h1]
  · simp only [h1, if_false]
    by_cases h2 : avail inp (cur + 4) < msbFirst (bitsAt cfg.byteBitOrder inp cur 4)
    · simp only [h2, if_true]
    · simp only [h2, if_false]
      split <;> rename_i h3 <;> split at h3 <;> simp_all

/-- The flag read: the end of the stream, or one of the two kinds (30_encoding.md R71). -/
theorem decodeAt_eq (cfg : Config) (inp : Memory) (cur : Nat) :
    decodeAt cfg inp cur =
      if avail inp cur < 1 then .endOfStream
      else if bitAt cfg.byteBitOrder inp cur then decodeBackref cfg inp (cur + 1)
      else decodeLiteral cfg inp (cur + 1) := by
  unfold decodeAt readUIntLsbFirst Config.flagWidth
  by_cases h : avail inp cur < 1
  · simp [h]
  · simp only [h, if_false]
    cases hb : bitAt cfg.byteBitOrder inp cur <;> simp [bitsAt, lsbFirst, hb]

/-- No bit remains at the flag exactly where the stream has ended. -/
theorem decodeAt_eq_endOfStream {cfg : Config} {inp : Memory} {cur : Nat} :
    decodeAt cfg inp cur = .endOfStream ↔ 8 * inp.length ≤ cur := by
  rw [decodeAt_eq, decodeLiteral_eq, decodeBackref_eq]
  dsimp only
  unfold avail
  split_ifs <;> simp <;> omega

/-- A read that failed after the flag stood after the flag and within the stream. -/
theorem decodeAt_truncated {cfg : Config} {inp : Memory} {cur f : Nat} (h : decodeAt cfg inp cur = .truncated f) :
    cur < f ∧ f ≤ 8 * inp.length := by
  rw [decodeAt_eq, decodeLiteral_eq, decodeBackref_eq] at h
  dsimp only at h
  unfold avail at h
  split_ifs at h <;> cases h <;> omega

theorem wf_lit {cfg : Config} {sel : Fin 4} {p : List Byte} :
    (Instr.lit sel p).wf cfg = true ↔ p.length < 2 ^ cfg.litWidths.get sel := by
  simp [Instr.wf]

theorem wf_bref {cfg : Config} {w off len : Nat} :
    (Instr.bref w off len).wf cfg = true ↔ w < 2 ^ 4 ∧ off < 2 ^ w ∧ len < 2 ^ w := by
  simp only [Instr.wf, Bool.and_eq_true, decide_eq_true_eq]
  exact Iff.rfl

/-- A decoded chunk is well formed, ends its own length after its start, and lies within the stream. -/
theorem decodeAt_chunk {cfg : Config} {inp : Memory} {cur next : Nat} {i : Instr}
    (h : decodeAt cfg inp cur = .chunk i next) :
    i.wf cfg = true ∧ next = cur + chunkBits cfg i ∧ next ≤ 8 * inp.length := by
  have hl := fun c m => length_bitsAt cfg.byteBitOrder inp c m
  rw [decodeAt_eq, decodeLiteral_eq, decodeBackref_eq] at h
  dsimp only at h
  unfold avail at h
  split_ifs at h with h1 h2 h3 h4 h5 h6 h7 h8
  · cases h
    have hw := msbFirst_lt (bitsAt cfg.byteBitOrder inp (cur + 1) 4)
    rw [hl] at hw
    refine ⟨wf_bref.2 ⟨hw, ?_, ?_⟩, ?_, ?_⟩
    · simpa [hl] using lsbFirst_lt (bitsAt cfg.byteBitOrder inp (cur + 1 + 4) (msbFirst (bitsAt cfg.byteBitOrder inp (cur + 1) 4)))
    · simpa [hl] using lsbFirst_lt (bitsAt cfg.byteBitOrder inp (cur + 1 + 4 + msbFirst (bitsAt cfg.byteBitOrder inp (cur + 1) 4)) (msbFirst (bitsAt cfg.byteBitOrder inp (cur + 1) 4)))
    · simp only [chunkBits, backrefBits]; omega
    · omega
  · cases h
    refine ⟨wf_lit.2 ?_, ?_, ?_⟩
    · simpa [hl] using lsbFirst_lt (bitsAt cfg.byteBitOrder inp (cur + 1 + 2)
        (cfg.litWidths.get (selectorOf (lsbFirst (bitsAt cfg.byteBitOrder inp (cur + 1) 2)))))
    · simp only [chunkBits, literalBits, List.length_map, List.length_range]; omega
    · omega

/-- A chunk takes at least three stream bits (41_dispatch.md R119). -/
theorem three_le_chunkBits (cfg : Config) (i : Instr) : 3 ≤ chunkBits cfg i := by
  cases i <;> simp [chunkBits, literalBits, backrefBits] <;> omega

/-- A well-formed chunk appends at most M bytes (41_dispatch.md R116). -/
theorem appendedBytes_le {cfg : Config} {i : Instr} (h : i.wf cfg = true) : appendedBytes i ≤ largestChunk cfg := by
  cases i with
  | lit sel p =>
    have hp := wf_lit.1 h
    have hle : cfg.litWidths.get sel ≤
        max (max cfg.litWidths.w0 cfg.litWidths.w1) (max cfg.litWidths.w2 cfg.litWidths.w3) := by
      fin_cases sel <;> simp [LitWidths.get]
    have := Nat.pow_le_pow_right (by omega : 2 > 0) hle
    simp only [appendedBytes, largestChunk]
    omega
  | bref w off len =>
    obtain ⟨hw, _, hlen⟩ := wf_bref.1 h
    have := Nat.pow_le_pow_right (by omega : 2 > 0) (by omega : w ≤ 15)
    simp only [appendedBytes, largestChunk]
    omega

end Sys2Proof.Machine
end

