-- ==== Sys2Proof/Laws/Memory.lean ====
section
/-! SUPPORT. What the operations over an element and over the output space can do, each said once. -/

namespace Sys2Proof.Machine

/-! ## Elements -/

@[simp] theorem need_some {α β : Type} (a : α) (f : Fault) (k : α → Host.Outcome β Fault Refusal) :
    need (some a) f k = k a := rfl

@[simp] theorem need_none {α β : Type} (f : Fault) (k : α → Host.Outcome β Fault Refusal) :
    need none f k = .fault f := rfl

@[simp] theorem needLatch_some {α : Type} (a : α) (l : Latch) (k : α → Outcome) : needLatch (some a) l k = k a := rfl

@[simp] theorem needLatch_none {α : Type} (l : Latch) (k : α → Outcome) :
    needLatch none l k = .fault (.latchOutsideChunk l) := rfl

@[simp] theorem needCommand_some {α : Type} (a : α) (k : α → Outcome) : needCommand (some a) k = k a := rfl

@[simp] theorem needCommand_none {α : Type} (k : α → Outcome) : needCommand none k = .fault .noCommand := rfl

theorem need_eq_next {α β : Type} {x : Option α} {f : Fault} {k : α → Host.Outcome β Fault Refusal} {b : β} :
    need x f k = .next b ↔ ∃ a, x = some a ∧ k a = .next b := by
  cases x <;> simp [need]

theorem needCommand_eq_next {α : Type} {x : Option α} {k : α → Outcome} {s : State} :
    needCommand x k = .next s ↔ ∃ a, x = some a ∧ k a = .next s := need_eq_next

/-! ## Flags -/

@[simp] theorem reachedLength_iff {out : Memory} {exp : Nat} : reachedLength out exp = true ↔ exp ≤ out.length := by
  simp [reachedLength]

@[simp] theorem legalOffset_iff {L0 off : Nat} : legalOffset L0 off = true ↔ 1 ≤ off ∧ off ≤ L0 := by
  simp [legalOffset]

@[simp] theorem shortResult_iff {out : Memory} {exp : Nat} : shortResult out exp = true ↔ out.length < exp := by
  simp [shortResult]

/-! ## The output space -/

@[simp] theorem fits_none (size : Nat) : fits none size = true := rfl

theorem fits_iff {cap : Option Nat} {size : Nat} : fits cap size = true ↔ ∀ c, cap = some c → size ≤ c := by
  cases cap <;> simp [fits]

/-- What fits, fits when smaller. -/
theorem fits_mono {cap : Option Nat} {a b : Nat} (h : a ≤ b) (hb : fits cap b = true) : fits cap a = true :=
  fits_iff.2 fun c hc => le_trans h (fits_iff.1 hb c hc)

/-- Reading past the end of the output has no value; within it, it gives the byte. -/
theorem outRead_eq_none {out : Memory} {i : Nat} : outRead out i = none ↔ out.length ≤ i := by
  simp [outRead]

theorem outRead_append_left {out p : Memory} {i : Nat} (h : i < out.length) :
    outRead (out ++ p) i = outRead out i := by
  simp [outRead, List.getElem?_append_left h]

theorem outRead_append_right {out p : Memory} {i : Nat} (h : out.length ≤ i) :
    outRead (out ++ p) i = p[i - out.length]? := by
  simp [outRead, List.getElem?_append_right h]

/-- Appending a payload: all of it, or nothing where it does not fit. -/
theorem appendAll_eq (cap : Option Nat) (out : Memory) (p : List Byte) (h : fits cap out.length = true) :
    appendAll cap out p = if fits cap (out.length + p.length) then some (out ++ p) else none := by
  induction p generalizing out with
  | nil => simp [appendAll, h]
  | cons v p ih =>
    rw [appendAll, outAppend]
    by_cases hv : fits cap (out.length + 1) = true
    · simp only [hv, if_true]
      rw [ih (out ++ [v]) (by simpa using hv)]
      simp [Nat.add_assoc, Nat.add_comm 1]
    · have : ¬ fits cap (out.length + (v :: p).length) = true := fun h' => hv (fits_mono (by simp) h')
      simp only [hv, this]
      rfl

theorem appendAll_unbounded (out : Memory) (p : List Byte) : appendAll none out p = some (out ++ p) := by
  rw [appendAll_eq none out p rfl]; rfl

@[simp] theorem length_copiedBytes (out : Memory) (off len : Nat) : (copiedBytes out off len).length = len := by
  simp [copiedBytes]

theorem copiedBytes_succ (out : Memory) (off len : Nat) :
    copiedBytes out off (len + 1) = copiedBytes out off len ++ [out.getD (out.length - off + len % off) 0] := by
  simp [copiedBytes, List.range_succ]

/-- Byte i of the grown output, read `off` bytes before its end, is the byte of the closed form. -/
theorem outRead_grown {out : Memory} {off : Nat} (h : 1 ≤ off) (hle : off ≤ out.length) (i : Nat) :
    outRead (out ++ copiedBytes out off i) (out.length - off + i)
      = some (out.getD (out.length - off + i % off) 0) := by
  by_cases hi : i < off
  · rw [outRead_append_left (by omega), Nat.mod_eq_of_lt hi, outRead, List.getD_eq_getElem?_getD,
      List.getElem?_eq_getElem (by omega)]
    rfl
  · rw [outRead_append_right (by omega)]
    have hlt : out.length - off + i - out.length < i := by omega
    have hmod : (out.length - off + i - out.length) % off = i % off := by
      have : out.length - off + i - out.length = i - off := by omega
      rw [this, Nat.mod_eq_sub_mod (by omega : i ≥ off)]
    simp [copiedBytes, hlt, hmod]

/-- The copy from a state in which `i` bytes are already appended: the rest of the closed form, or the capacity stops
it. It never reads outside the output. -/
theorem copyBytes_grown (cap : Option Nat) {out : Memory} {off : Nat} (h : 1 ≤ off) (hle : off ≤ out.length)
    (len i : Nat) (hfit : fits cap (out.length + i) = true) :
    copyBytes cap (out ++ copiedBytes out off i) (out.length - off + i) len
      = if fits cap (out.length + (i + len)) then .ok (out ++ copiedBytes out off (i + len)) else .capacityExceeded := by
  induction len generalizing i with
  | zero => simp [copyBytes, hfit]
  | succ len ih =>
    simp only [copyBytes, outRead_grown h hle i, outAppend, List.length_append, length_copiedBytes]
    by_cases hv : fits cap (out.length + i + 1) = true
    · rw [if_pos hv, List.append_assoc, ← copiedBytes_succ]
      have := ih (i + 1) hv
      rw [show i + 1 + len = i + (len + 1) by omega] at this
      rw [show out.length - off + i + 1 = out.length - off + (i + 1) by omega]
      exact this
    · have : ¬ fits cap (out.length + (i + (len + 1))) = true := fun h' => hv (fits_mono (by omega) h')
      simp [hv, this]

/-- The whole copy of a legal back-reference (43_backref.md R153, R154). -/
theorem copyBytes_eq (cap : Option Nat) {out : Memory} {off : Nat} (h : 1 ≤ off) (hle : off ≤ out.length)
    (len : Nat) (hfit : fits cap out.length = true) :
    copyBytes cap out (out.length - off) len
      = if fits cap (out.length + len) then .ok (out ++ copiedBytes out off len) else .capacityExceeded := by
  have := copyBytes_grown cap h hle len 0 hfit
  simpa [copiedBytes] using this

/-! ## The canonical form -/

/-- Every byte space is in its canonical form, so every operation keeps it. -/
theorem memory_wf (m : Memory) : Memory.wf m = true := by
  have hp : (List.range m.length).Pairwise (· < ·) := List.pairwise_lt_range
  have : (Memory.cells m).Pairwise fun a b => a.1 < b.1 := by
    have hmap : ((Memory.cells m).map Prod.fst).Pairwise (· < ·) := by
      simpa [Memory.cells, List.map_fst_zip] using hp
    exact List.pairwise_map.1 hmap
  simpa [Memory.wf] using this

theorem outAppend_keeps_wf {cap : Option Nat} {out out' : Memory} {v : Byte}
    (_ : outAppend cap out v = some out') : Memory.wf out' = true := memory_wf out'

/-- A cell of the space is an address with the byte a read of it gives. -/
theorem mem_cells {m : Memory} {a : Nat} {b : Byte} : (a, b) ∈ Memory.cells m ↔ outRead m a = some b := by
  rw [Memory.cells, outRead, List.mem_iff_getElem?]
  constructor
  · rintro ⟨k, hk⟩
    rw [List.getElem?_zip_eq_some] at hk
    obtain ⟨h1, h2⟩ := hk
    rw [List.getElem?_eq_some_iff] at h1
    obtain ⟨_, h1⟩ := h1
    simp at h1
    subst h1
    exact h2
  · intro h
    refine ⟨a, List.getElem?_zip_eq_some.2 ⟨?_, h⟩⟩
    have := (List.getElem?_eq_some_iff.1 h).1
    simp [this]

end Sys2Proof.Machine
end

