-- ==== Sys2Proof/Laws/State.lean ====
section
/-! SUPPORT. One lemma per field per named write of the state: what the field holds after it. -/

namespace Sys2Proof.Machine.State

open Sys2Proof.Machine

@[simp] theorem latchChunk_status (s : State) (cs : Nat) (flag : Bool) : (s.latchChunk cs flag).status = s.status := rfl
@[simp] theorem latchChunk_inp (s : State) (cs : Nat) (flag : Bool) : (s.latchChunk cs flag).inp = s.inp := rfl
@[simp] theorem latchChunk_exp (s : State) (cs : Nat) (flag : Bool) : (s.latchChunk cs flag).exp = s.exp := rfl
@[simp] theorem latchChunk_cur (s : State) (cs : Nat) (flag : Bool) : (s.latchChunk cs flag).cur = s.cur := rfl
@[simp] theorem latchChunk_out (s : State) (cs : Nat) (flag : Bool) : (s.latchChunk cs flag).out = s.out := rfl
@[simp] theorem latchChunk_cs (s : State) (cs : Nat) (flag : Bool) : (s.latchChunk cs flag).cs = some cs := rfl
@[simp] theorem latchChunk_flag (s : State) (cs : Nat) (flag : Bool) : (s.latchChunk cs flag).flag = some flag := rfl
@[simp] theorem latchChunk_sel (s : State) (cs : Nat) (flag : Bool) : (s.latchChunk cs flag).sel = s.sel := rfl
@[simp] theorem latchChunk_n (s : State) (cs : Nat) (flag : Bool) : (s.latchChunk cs flag).n = s.n := rfl
@[simp] theorem latchChunk_w (s : State) (cs : Nat) (flag : Bool) : (s.latchChunk cs flag).w = s.w := rfl
@[simp] theorem latchChunk_off (s : State) (cs : Nat) (flag : Bool) : (s.latchChunk cs flag).off = s.off := rfl
@[simp] theorem latchChunk_len (s : State) (cs : Nat) (flag : Bool) : (s.latchChunk cs flag).len = s.len := rfl
@[simp] theorem latchChunk_src (s : State) (cs : Nat) (flag : Bool) : (s.latchChunk cs flag).src = s.src := rfl
@[simp] theorem latchChunk_errKind (s : State) (cs : Nat) (flag : Bool) : (s.latchChunk cs flag).errKind = s.errKind := rfl
@[simp] theorem latchChunk_errPos (s : State) (cs : Nat) (flag : Bool) : (s.latchChunk cs flag).errPos = s.errPos := rfl
@[simp] theorem latchChunk_draws (s : State) (cs : Nat) (flag : Bool) : (s.latchChunk cs flag).draws = s.draws := rfl

@[simp] theorem latchLiteral_status (s : State) (sel : Fin 4) (n : Nat) : (s.latchLiteral sel n).status = s.status := rfl
@[simp] theorem latchLiteral_inp (s : State) (sel : Fin 4) (n : Nat) : (s.latchLiteral sel n).inp = s.inp := rfl
@[simp] theorem latchLiteral_exp (s : State) (sel : Fin 4) (n : Nat) : (s.latchLiteral sel n).exp = s.exp := rfl
@[simp] theorem latchLiteral_cur (s : State) (sel : Fin 4) (n : Nat) : (s.latchLiteral sel n).cur = s.cur := rfl
@[simp] theorem latchLiteral_out (s : State) (sel : Fin 4) (n : Nat) : (s.latchLiteral sel n).out = s.out := rfl
@[simp] theorem latchLiteral_cs (s : State) (sel : Fin 4) (n : Nat) : (s.latchLiteral sel n).cs = s.cs := rfl
@[simp] theorem latchLiteral_flag (s : State) (sel : Fin 4) (n : Nat) : (s.latchLiteral sel n).flag = s.flag := rfl
@[simp] theorem latchLiteral_sel (s : State) (sel : Fin 4) (n : Nat) : (s.latchLiteral sel n).sel = some sel := rfl
@[simp] theorem latchLiteral_n (s : State) (sel : Fin 4) (n : Nat) : (s.latchLiteral sel n).n = some n := rfl
@[simp] theorem latchLiteral_w (s : State) (sel : Fin 4) (n : Nat) : (s.latchLiteral sel n).w = s.w := rfl
@[simp] theorem latchLiteral_off (s : State) (sel : Fin 4) (n : Nat) : (s.latchLiteral sel n).off = s.off := rfl
@[simp] theorem latchLiteral_len (s : State) (sel : Fin 4) (n : Nat) : (s.latchLiteral sel n).len = s.len := rfl
@[simp] theorem latchLiteral_src (s : State) (sel : Fin 4) (n : Nat) : (s.latchLiteral sel n).src = s.src := rfl
@[simp] theorem latchLiteral_errKind (s : State) (sel : Fin 4) (n : Nat) : (s.latchLiteral sel n).errKind = s.errKind := rfl
@[simp] theorem latchLiteral_errPos (s : State) (sel : Fin 4) (n : Nat) : (s.latchLiteral sel n).errPos = s.errPos := rfl
@[simp] theorem latchLiteral_draws (s : State) (sel : Fin 4) (n : Nat) : (s.latchLiteral sel n).draws = s.draws := rfl

@[simp] theorem latchBackref_status (s : State) (w off len : Nat) : (s.latchBackref w off len).status = s.status := rfl
@[simp] theorem latchBackref_inp (s : State) (w off len : Nat) : (s.latchBackref w off len).inp = s.inp := rfl
@[simp] theorem latchBackref_exp (s : State) (w off len : Nat) : (s.latchBackref w off len).exp = s.exp := rfl
@[simp] theorem latchBackref_cur (s : State) (w off len : Nat) : (s.latchBackref w off len).cur = s.cur := rfl
@[simp] theorem latchBackref_out (s : State) (w off len : Nat) : (s.latchBackref w off len).out = s.out := rfl
@[simp] theorem latchBackref_cs (s : State) (w off len : Nat) : (s.latchBackref w off len).cs = s.cs := rfl
@[simp] theorem latchBackref_flag (s : State) (w off len : Nat) : (s.latchBackref w off len).flag = s.flag := rfl
@[simp] theorem latchBackref_sel (s : State) (w off len : Nat) : (s.latchBackref w off len).sel = s.sel := rfl
@[simp] theorem latchBackref_n (s : State) (w off len : Nat) : (s.latchBackref w off len).n = s.n := rfl
@[simp] theorem latchBackref_w (s : State) (w off len : Nat) : (s.latchBackref w off len).w = some w := rfl
@[simp] theorem latchBackref_off (s : State) (w off len : Nat) : (s.latchBackref w off len).off = some off := rfl
@[simp] theorem latchBackref_len (s : State) (w off len : Nat) : (s.latchBackref w off len).len = some len := rfl
@[simp] theorem latchBackref_src (s : State) (w off len : Nat) : (s.latchBackref w off len).src = s.src := rfl
@[simp] theorem latchBackref_errKind (s : State) (w off len : Nat) : (s.latchBackref w off len).errKind = s.errKind := rfl
@[simp] theorem latchBackref_errPos (s : State) (w off len : Nat) : (s.latchBackref w off len).errPos = s.errPos := rfl
@[simp] theorem latchBackref_draws (s : State) (w off len : Nat) : (s.latchBackref w off len).draws = s.draws := rfl

@[simp] theorem latchSource_status (s : State) (src : Nat) : (s.latchSource src).status = s.status := rfl
@[simp] theorem latchSource_inp (s : State) (src : Nat) : (s.latchSource src).inp = s.inp := rfl
@[simp] theorem latchSource_exp (s : State) (src : Nat) : (s.latchSource src).exp = s.exp := rfl
@[simp] theorem latchSource_cur (s : State) (src : Nat) : (s.latchSource src).cur = s.cur := rfl
@[simp] theorem latchSource_out (s : State) (src : Nat) : (s.latchSource src).out = s.out := rfl
@[simp] theorem latchSource_cs (s : State) (src : Nat) : (s.latchSource src).cs = s.cs := rfl
@[simp] theorem latchSource_flag (s : State) (src : Nat) : (s.latchSource src).flag = s.flag := rfl
@[simp] theorem latchSource_sel (s : State) (src : Nat) : (s.latchSource src).sel = s.sel := rfl
@[simp] theorem latchSource_n (s : State) (src : Nat) : (s.latchSource src).n = s.n := rfl
@[simp] theorem latchSource_w (s : State) (src : Nat) : (s.latchSource src).w = s.w := rfl
@[simp] theorem latchSource_off (s : State) (src : Nat) : (s.latchSource src).off = s.off := rfl
@[simp] theorem latchSource_len (s : State) (src : Nat) : (s.latchSource src).len = s.len := rfl
@[simp] theorem latchSource_src (s : State) (src : Nat) : (s.latchSource src).src = some src := rfl
@[simp] theorem latchSource_errKind (s : State) (src : Nat) : (s.latchSource src).errKind = s.errKind := rfl
@[simp] theorem latchSource_errPos (s : State) (src : Nat) : (s.latchSource src).errPos = s.errPos := rfl
@[simp] theorem latchSource_draws (s : State) (src : Nat) : (s.latchSource src).draws = s.draws := rfl

@[simp] theorem setCur_status (s : State) (cur : Nat) : (s.setCur cur).status = s.status := rfl
@[simp] theorem setCur_inp (s : State) (cur : Nat) : (s.setCur cur).inp = s.inp := rfl
@[simp] theorem setCur_exp (s : State) (cur : Nat) : (s.setCur cur).exp = s.exp := rfl
@[simp] theorem setCur_cur (s : State) (cur : Nat) : (s.setCur cur).cur = some cur := rfl
@[simp] theorem setCur_out (s : State) (cur : Nat) : (s.setCur cur).out = s.out := rfl
@[simp] theorem setCur_cs (s : State) (cur : Nat) : (s.setCur cur).cs = s.cs := rfl
@[simp] theorem setCur_flag (s : State) (cur : Nat) : (s.setCur cur).flag = s.flag := rfl
@[simp] theorem setCur_sel (s : State) (cur : Nat) : (s.setCur cur).sel = s.sel := rfl
@[simp] theorem setCur_n (s : State) (cur : Nat) : (s.setCur cur).n = s.n := rfl
@[simp] theorem setCur_w (s : State) (cur : Nat) : (s.setCur cur).w = s.w := rfl
@[simp] theorem setCur_off (s : State) (cur : Nat) : (s.setCur cur).off = s.off := rfl
@[simp] theorem setCur_len (s : State) (cur : Nat) : (s.setCur cur).len = s.len := rfl
@[simp] theorem setCur_src (s : State) (cur : Nat) : (s.setCur cur).src = s.src := rfl
@[simp] theorem setCur_errKind (s : State) (cur : Nat) : (s.setCur cur).errKind = s.errKind := rfl
@[simp] theorem setCur_errPos (s : State) (cur : Nat) : (s.setCur cur).errPos = s.errPos := rfl
@[simp] theorem setCur_draws (s : State) (cur : Nat) : (s.setCur cur).draws = s.draws := rfl

@[simp] theorem setOut_status (s : State) (out : Memory) : (s.setOut out).status = s.status := rfl
@[simp] theorem setOut_inp (s : State) (out : Memory) : (s.setOut out).inp = s.inp := rfl
@[simp] theorem setOut_exp (s : State) (out : Memory) : (s.setOut out).exp = s.exp := rfl
@[simp] theorem setOut_cur (s : State) (out : Memory) : (s.setOut out).cur = s.cur := rfl
@[simp] theorem setOut_out (s : State) (out : Memory) : (s.setOut out).out = some out := rfl
@[simp] theorem setOut_cs (s : State) (out : Memory) : (s.setOut out).cs = s.cs := rfl
@[simp] theorem setOut_flag (s : State) (out : Memory) : (s.setOut out).flag = s.flag := rfl
@[simp] theorem setOut_sel (s : State) (out : Memory) : (s.setOut out).sel = s.sel := rfl
@[simp] theorem setOut_n (s : State) (out : Memory) : (s.setOut out).n = s.n := rfl
@[simp] theorem setOut_w (s : State) (out : Memory) : (s.setOut out).w = s.w := rfl
@[simp] theorem setOut_off (s : State) (out : Memory) : (s.setOut out).off = s.off := rfl
@[simp] theorem setOut_len (s : State) (out : Memory) : (s.setOut out).len = s.len := rfl
@[simp] theorem setOut_src (s : State) (out : Memory) : (s.setOut out).src = s.src := rfl
@[simp] theorem setOut_errKind (s : State) (out : Memory) : (s.setOut out).errKind = s.errKind := rfl
@[simp] theorem setOut_errPos (s : State) (out : Memory) : (s.setOut out).errPos = s.errPos := rfl
@[simp] theorem setOut_draws (s : State) (out : Memory) : (s.setOut out).draws = s.draws := rfl

@[simp] theorem endChunk_status (s : State) : s.endChunk.status = s.status := rfl
@[simp] theorem endChunk_inp (s : State) : s.endChunk.inp = s.inp := rfl
@[simp] theorem endChunk_exp (s : State) : s.endChunk.exp = s.exp := rfl
@[simp] theorem endChunk_cur (s : State) : s.endChunk.cur = s.cur := rfl
@[simp] theorem endChunk_out (s : State) : s.endChunk.out = s.out := rfl
@[simp] theorem endChunk_cs (s : State) : s.endChunk.cs = none := rfl
@[simp] theorem endChunk_flag (s : State) : s.endChunk.flag = none := rfl
@[simp] theorem endChunk_sel (s : State) : s.endChunk.sel = none := rfl
@[simp] theorem endChunk_n (s : State) : s.endChunk.n = none := rfl
@[simp] theorem endChunk_w (s : State) : s.endChunk.w = none := rfl
@[simp] theorem endChunk_off (s : State) : s.endChunk.off = none := rfl
@[simp] theorem endChunk_len (s : State) : s.endChunk.len = none := rfl
@[simp] theorem endChunk_src (s : State) : s.endChunk.src = none := rfl
@[simp] theorem endChunk_errKind (s : State) : s.endChunk.errKind = s.errKind := rfl
@[simp] theorem endChunk_errPos (s : State) : s.endChunk.errPos = s.errPos := rfl
@[simp] theorem endChunk_draws (s : State) : s.endChunk.draws = s.draws := rfl

@[simp] theorem finish_status (s : State) : s.finish.status = .done := rfl
@[simp] theorem finish_inp (s : State) : s.finish.inp = s.inp := rfl
@[simp] theorem finish_exp (s : State) : s.finish.exp = s.exp := rfl
@[simp] theorem finish_cur (s : State) : s.finish.cur = s.cur := rfl
@[simp] theorem finish_out (s : State) : s.finish.out = s.out := rfl
@[simp] theorem finish_cs (s : State) : s.finish.cs = s.cs := rfl
@[simp] theorem finish_flag (s : State) : s.finish.flag = s.flag := rfl
@[simp] theorem finish_sel (s : State) : s.finish.sel = s.sel := rfl
@[simp] theorem finish_n (s : State) : s.finish.n = s.n := rfl
@[simp] theorem finish_w (s : State) : s.finish.w = s.w := rfl
@[simp] theorem finish_off (s : State) : s.finish.off = s.off := rfl
@[simp] theorem finish_len (s : State) : s.finish.len = s.len := rfl
@[simp] theorem finish_src (s : State) : s.finish.src = s.src := rfl
@[simp] theorem finish_errKind (s : State) : s.finish.errKind = s.errKind := rfl
@[simp] theorem finish_errPos (s : State) : s.finish.errPos = s.errPos := rfl
@[simp] theorem finish_draws (s : State) : s.finish.draws = s.draws := rfl

@[simp] theorem loseCursor_status (s : State) (inp : Memory) (cur : Nat) : (s.loseCursor inp cur).status = s.status := rfl
@[simp] theorem loseCursor_inp (s : State) (inp : Memory) (cur : Nat) : (s.loseCursor inp cur).inp = s.inp := rfl
@[simp] theorem loseCursor_exp (s : State) (inp : Memory) (cur : Nat) : (s.loseCursor inp cur).exp = s.exp := rfl
@[simp] theorem loseCursor_cur (s : State) (inp : Memory) (cur : Nat) : (s.loseCursor inp cur).cur = some (cur + Config.freeCursor s.draws % (avail inp cur + 1)) := rfl
@[simp] theorem loseCursor_out (s : State) (inp : Memory) (cur : Nat) : (s.loseCursor inp cur).out = s.out := rfl
@[simp] theorem loseCursor_cs (s : State) (inp : Memory) (cur : Nat) : (s.loseCursor inp cur).cs = s.cs := rfl
@[simp] theorem loseCursor_flag (s : State) (inp : Memory) (cur : Nat) : (s.loseCursor inp cur).flag = s.flag := rfl
@[simp] theorem loseCursor_sel (s : State) (inp : Memory) (cur : Nat) : (s.loseCursor inp cur).sel = s.sel := rfl
@[simp] theorem loseCursor_n (s : State) (inp : Memory) (cur : Nat) : (s.loseCursor inp cur).n = s.n := rfl
@[simp] theorem loseCursor_w (s : State) (inp : Memory) (cur : Nat) : (s.loseCursor inp cur).w = s.w := rfl
@[simp] theorem loseCursor_off (s : State) (inp : Memory) (cur : Nat) : (s.loseCursor inp cur).off = s.off := rfl
@[simp] theorem loseCursor_len (s : State) (inp : Memory) (cur : Nat) : (s.loseCursor inp cur).len = s.len := rfl
@[simp] theorem loseCursor_src (s : State) (inp : Memory) (cur : Nat) : (s.loseCursor inp cur).src = s.src := rfl
@[simp] theorem loseCursor_errKind (s : State) (inp : Memory) (cur : Nat) : (s.loseCursor inp cur).errKind = s.errKind := rfl
@[simp] theorem loseCursor_errPos (s : State) (inp : Memory) (cur : Nat) : (s.loseCursor inp cur).errPos = s.errPos := rfl
@[simp] theorem loseCursor_draws (s : State) (inp : Memory) (cur : Nat) : (s.loseCursor inp cur).draws = s.draws + 1 := rfl

@[simp] theorem enterError_status (s : State) (kind : ErrKind) (cs : Nat) : (s.enterError kind cs).status = .error := rfl
@[simp] theorem enterError_inp (s : State) (kind : ErrKind) (cs : Nat) : (s.enterError kind cs).inp = s.inp := rfl
@[simp] theorem enterError_exp (s : State) (kind : ErrKind) (cs : Nat) : (s.enterError kind cs).exp = s.exp := rfl
@[simp] theorem enterError_cur (s : State) (kind : ErrKind) (cs : Nat) : (s.enterError kind cs).cur = s.cur := rfl
@[simp] theorem enterError_out (s : State) (kind : ErrKind) (cs : Nat) : (s.enterError kind cs).out = none := rfl
@[simp] theorem enterError_cs (s : State) (kind : ErrKind) (cs : Nat) : (s.enterError kind cs).cs = none := rfl
@[simp] theorem enterError_flag (s : State) (kind : ErrKind) (cs : Nat) : (s.enterError kind cs).flag = none := rfl
@[simp] theorem enterError_sel (s : State) (kind : ErrKind) (cs : Nat) : (s.enterError kind cs).sel = none := rfl
@[simp] theorem enterError_n (s : State) (kind : ErrKind) (cs : Nat) : (s.enterError kind cs).n = none := rfl
@[simp] theorem enterError_w (s : State) (kind : ErrKind) (cs : Nat) : (s.enterError kind cs).w = none := rfl
@[simp] theorem enterError_off (s : State) (kind : ErrKind) (cs : Nat) : (s.enterError kind cs).off = none := rfl
@[simp] theorem enterError_len (s : State) (kind : ErrKind) (cs : Nat) : (s.enterError kind cs).len = none := rfl
@[simp] theorem enterError_src (s : State) (kind : ErrKind) (cs : Nat) : (s.enterError kind cs).src = none := rfl
@[simp] theorem enterError_errKind (s : State) (kind : ErrKind) (cs : Nat) : (s.enterError kind cs).errKind = some kind := rfl
@[simp] theorem enterError_errPos (s : State) (kind : ErrKind) (cs : Nat) : (s.enterError kind cs).errPos = some cs := rfl
@[simp] theorem enterError_draws (s : State) (kind : ErrKind) (cs : Nat) : (s.enterError kind cs).draws = s.draws := rfl

@[simp] theorem start_status (s : State) (inp : Memory) (exp : Nat) : (s.start inp exp).status = .busy := rfl
@[simp] theorem start_inp (s : State) (inp : Memory) (exp : Nat) : (s.start inp exp).inp = some inp := rfl
@[simp] theorem start_exp (s : State) (inp : Memory) (exp : Nat) : (s.start inp exp).exp = some exp := rfl
@[simp] theorem start_cur (s : State) (inp : Memory) (exp : Nat) : (s.start inp exp).cur = some 0 := rfl
@[simp] theorem start_out (s : State) (inp : Memory) (exp : Nat) : (s.start inp exp).out = some [] := rfl
@[simp] theorem start_cs (s : State) (inp : Memory) (exp : Nat) : (s.start inp exp).cs = none := rfl
@[simp] theorem start_flag (s : State) (inp : Memory) (exp : Nat) : (s.start inp exp).flag = none := rfl
@[simp] theorem start_sel (s : State) (inp : Memory) (exp : Nat) : (s.start inp exp).sel = none := rfl
@[simp] theorem start_n (s : State) (inp : Memory) (exp : Nat) : (s.start inp exp).n = none := rfl
@[simp] theorem start_w (s : State) (inp : Memory) (exp : Nat) : (s.start inp exp).w = none := rfl
@[simp] theorem start_off (s : State) (inp : Memory) (exp : Nat) : (s.start inp exp).off = none := rfl
@[simp] theorem start_len (s : State) (inp : Memory) (exp : Nat) : (s.start inp exp).len = none := rfl
@[simp] theorem start_src (s : State) (inp : Memory) (exp : Nat) : (s.start inp exp).src = none := rfl
@[simp] theorem start_errKind (s : State) (inp : Memory) (exp : Nat) : (s.start inp exp).errKind = none := rfl
@[simp] theorem start_errPos (s : State) (inp : Memory) (exp : Nat) : (s.start inp exp).errPos = none := rfl
@[simp] theorem start_draws (s : State) (inp : Memory) (exp : Nat) : (s.start inp exp).draws = s.draws := rfl

end Sys2Proof.Machine.State
end

