-- ==== Sys2Proof/Laws/Exec.lean ====
section
/-! SUPPORT. All that opening a chunk, taking an error and the two chunk bodies can do, each said once for any
instance. -/

namespace Sys2Proof.Machine

@[simp] theorem raiseError_of_cs {kind : ErrKind} {s : State} {cs : Nat} (h : s.cs = some cs) :
    raiseError kind s = .next (s.enterError kind cs) := by
  simp [raiseError, h]

theorem openChunk_of_busy {flag : Bool} {s : State} {body : State → Outcome} {cur : Nat}
    (hs : s.status = .busy) (hc : s.cur = some cur) : openChunk flag s body = body (s.latchChunk cur flag) := by
  simp [openChunk, hs, hc]

theorem openChunk_of_not_busy {flag : Bool} {s : State} {body : State → Outcome} (hs : s.status ≠ .busy) :
    openChunk flag s body = .fault .noCommand := by
  unfold openChunk
  split <;> simp_all

/-- LIT in a running command (42_literal.md R130): it completes, unless a bounded output cannot hold the payload. -/
theorem literalChunk_eq {cfg : Config} {sel : Fin 4} {p : List Byte} {s : State} {cs : Nat} {out : Memory}
    (hs : s.status = .busy) (hc : s.cur = some cs) (ho : s.out = some out)
    (hfit : fits cfg.outCap out.length = true) :
    literalChunk cfg sel p s =
      if fits cfg.outCap (out.length + p.length) then
        .next (s.completed (cs + literalBits cfg sel p.length) (out ++ p))
      else .next (s.failed .capacityExceeded cs (cs + literalBits cfg sel p.length)) := by
  rw [literalChunk, openChunk_of_busy hs hc]
  simp only [State.latchLiteral_sel, State.latchLiteral_n, State.latchLiteral_cs, State.latchChunk_cs, needLatch_some, needCommand_some,
    State.setCur_out, State.latchLiteral_out, State.latchChunk_out, ho, appendAll_eq _ _ _ hfit]
  by_cases h : fits cfg.outCap (out.length + p.length) = true
  · simp only [h, if_true]
    rfl
  · simp only [h]
    rfl

/-- BREF in a running command (43_backref.md R150 to R154): it completes with the closed form of the copy; or a
bounded output cannot hold the copy; or the offset is illegal. -/
theorem backrefChunk_eq {cfg : Config} {w off len : Nat} {s : State} {cs : Nat} {out : Memory}
    (hs : s.status = .busy) (hc : s.cur = some cs) (ho : s.out = some out)
    (hfit : fits cfg.outCap out.length = true) :
    backrefChunk cfg w off len s =
      if 1 ≤ off ∧ off ≤ out.length then
        if fits cfg.outCap (out.length + len) then
          .next (s.completed (cs + backrefBits w) (out ++ copiedBytes out off len))
        else .next (s.failed .capacityExceeded cs (cs + backrefBits w))
      else .next (s.failed .invalidBackreference cs (cs + backrefBits w)) := by
  rw [backrefChunk, openChunk_of_busy hs hc]
  simp only [State.latchBackref_w, State.latchBackref_off, State.latchBackref_len, State.latchBackref_cs,
    State.latchChunk_cs, needLatch_some, needCommand_some, State.setCur_out, State.latchBackref_out, State.latchChunk_out, ho,
    State.latchSource_src, State.latchSource_len, State.setCur_len]
  by_cases hl : 1 ≤ off ∧ off ≤ out.length
  · have hl' : legalOffset out.length off = true := legalOffset_iff.2 hl
    simp only [hl, hl', and_self, if_true, copyBytes_eq _ hl.1 hl.2 _ hfit]
    by_cases h : fits cfg.outCap (out.length + len) = true
    · simp only [h, if_true]
      rfl
    · simp only [h]
      rfl
  · have hl' : ¬ legalOffset out.length off = true := fun h => hl (legalOffset_iff.1 h)
    simp only [hl, hl']
    rfl

@[simp] theorem execWith_lit (cfg : Config) (sel : Fin 4) (p : List Byte) (s : State) :
    execWith cfg (.lit sel p) s = literalChunk cfg sel p s := rfl

@[simp] theorem execWith_bref (cfg : Config) (w off len : Nat) (s : State) :
    execWith cfg (.bref w off len) s = backrefChunk cfg w off len s := rfl

@[simp] theorem chunkBits_lit (cfg : Config) (sel : Fin 4) (p : List Byte) :
    chunkBits cfg (.lit sel p) = literalBits cfg sel p.length := rfl

@[simp] theorem chunkBits_bref (cfg : Config) (w off len : Nat) :
    chunkBits cfg (.bref w off len) = backrefBits w := rfl

/-- Outside a command no chunk body runs. -/
theorem execWith_of_not_busy {cfg : Config} {i : Instr} {s : State} (hs : s.status ≠ .busy) :
    execWith cfg i s = .fault .noCommand := by
  cases i with
  | lit sel p => rw [execWith_lit, literalChunk, openChunk_of_not_busy hs]
  | bref w off len => rw [execWith_bref, backrefChunk, openChunk_of_not_busy hs]

/-- `exec` is the body of the engine of this spec. -/
theorem exec_eq (i : Instr) (s : State) : exec i s = execWith engineConfig i s := by
  cases i <;> rfl

/-- A chunk body, whichever it is, against what the chunk expands to: it completes with the expansion, or enters one
of the two errors a body can find. -/
theorem execWith_cases {cfg : Config} {i : Instr} {s : State} {cs : Nat} {out : Memory}
    (hs : s.status = .busy) (hc : s.cur = some cs) (ho : s.out = some out)
    (hfit : fits cfg.outCap out.length = true) :
    (∃ out', expandChunk out i = some out' ∧ fits cfg.outCap out'.length = true ∧
        execWith cfg i s = .next (s.completed (cs + chunkBits cfg i) out')) ∨
    (∃ out', expandChunk out i = some out' ∧ fits cfg.outCap out'.length = false ∧
        execWith cfg i s = .next (s.failed .capacityExceeded cs (cs + chunkBits cfg i))) ∨
    (expandChunk out i = none ∧ execWith cfg i s = .next (s.failed .invalidBackreference cs (cs + chunkBits cfg i))) := by
  cases i with
  | lit sel p =>
    have := literalChunk_eq (cfg := cfg) (sel := sel) (p := p) hs hc ho hfit
    by_cases h : fits cfg.outCap (out.length + p.length) = true
    · exact .inl ⟨_, rfl, by simpa using h, by simpa [h] using this⟩
    · exact .inr (.inl ⟨_, rfl, by simpa using h, by simpa [h] using this⟩)
  | bref w off len =>
    have := backrefChunk_eq (cfg := cfg) (w := w) (off := off) (len := len) hs hc ho hfit
    by_cases hl : 1 ≤ off ∧ off ≤ out.length
    · have he : expandChunk out (.bref w off len) = some (out ++ copiedBytes out off len) := if_pos hl
      rw [if_pos hl] at this
      by_cases h : fits cfg.outCap (out.length + len) = true
      · exact .inl ⟨_, he, by simpa using h, by rw [if_pos h] at this; exact this⟩
      · exact .inr (.inl ⟨_, he, by simpa using h, by rw [if_neg h] at this; exact this⟩)
    · rw [if_neg hl] at this
      exact .inr (.inr ⟨if_neg hl, this⟩)

end Sys2Proof.Machine
end

