-- ==== Sys2Proof/Laws/PerInstr.lean ====
section
/-! SUPPORT. Statements made once per instruction. Family EncodeLength: the encoder writes exactly the bits that
40_bitreader.md R98 accounts for the chunk, in every instance. -/

namespace Sys2Proof.Laws.EncodeLength

open Sys2Proof.Machine

/-- The encoding of a chunk is as long as the chunk's accounted length. -/
def Statement (i : Instr) : Prop := ∀ cfg : Config, (encode cfg i).length = chunkBits cfg i

theorem lit (sel : Fin 4) (payload : List Byte) : Statement (.lit sel payload) := by
  intro cfg
  simp only [encode, Config.selWidth, List.length_cons, List.length_append, length_lsbBits, length_flatMap_bytes,
    chunkBits, literalBits]
  omega

theorem bref (w off len : Nat) : Statement (.bref w off len) := by
  intro cfg
  simp only [encode, Config.wordSizeWidth, List.length_cons, List.length_append, length_lsbBits, length_msbBits,
    chunkBits, backrefBits]
  omega

end Sys2Proof.Laws.EncodeLength
end

