-- ==== Sys2Proof/Laws/Step.lean ====
section
/-! SUPPORT. All that one step of the machine can do, said once for any instance. -/

namespace Sys2Proof.Machine

/-- `step` is the step of the engine of this spec. -/
theorem step_eq (s : State) : step s = stepWith engineConfig s := by
  have : exec = execWith engineConfig := by funext i s; exact exec_eq i s
  rw [step, stepWith, this]

/-- Outside a command the engine takes no step: the state stays. -/
theorem stepWith_of_not_busy {cfg : Config} {s : State} (hs : s.status ≠ .busy) : stepWith cfg s = .next s := by
  unfold stepWith engineStep
  split <;> simp_all

/-- `s` after an end of stream inside the chunk at `cs`, met by a read that stood at `f`. -/
theorem truncateChunk_eq (cfg : Config) (inp : Memory) (cs f : Nat) (s : State) :
    truncateChunk cfg inp cs f s =
      .next (s.cutShort cs (f + Config.freeCursor s.draws % (avail inp f + 1))) := rfl

/-- One step of a running command: the check, the flag read, and the body of what stands at the cursor. -/
theorem stepWith_of_busy {cfg : Config} {s : State} {inp : Memory} {exp cur : Nat} {out : Memory}
    (hs : s.status = .busy) (hi : s.inp = some inp) (he : s.exp = some exp) (hc : s.cur = some cur)
    (ho : s.out = some out) :
    stepWith cfg s =
      if exp ≤ out.length then .next s.finish
      else match decodeAt cfg inp cur with
        | .endOfStream => .next s.finish
        | .truncated f => truncateChunk cfg inp cur f s
        | .chunk i _ => execWith cfg i s := by
  unfold stepWith engineStep
  rw [hs]
  simp only [chunkStep, hi, he, hc, ho, needCommand_some]
  by_cases h : exp ≤ out.length
  · simp [h]
  · have : ¬ reachedLength out exp = true := fun h' => h (reachedLength_iff.1 h')
    simp only [h, this]
    rfl

/-- One step of a running command, by cases: it finishes because the output is long enough; it finishes because the
stream has ended; the chunk is cut; or a whole chunk completes or enters one of its errors. -/
theorem stepWith_cases {cfg : Config} {s : State} {inp : Memory} {exp cur : Nat} {out : Memory}
    (hs : s.status = .busy) (hi : s.inp = some inp) (he : s.exp = some exp) (hc : s.cur = some cur)
    (ho : s.out = some out) (hfit : fits cfg.outCap out.length = true) :
    (exp ≤ out.length ∧ stepWith cfg s = .next s.finish) ∨
    (out.length < exp ∧ 8 * inp.length ≤ cur ∧ stepWith cfg s = .next s.finish) ∨
    (∃ f, out.length < exp ∧ decodeAt cfg inp cur = .truncated f ∧
      stepWith cfg s = .next (s.cutShort cur (f + Config.freeCursor s.draws % (avail inp f + 1)))) ∨
    (∃ i next, out.length < exp ∧ decodeAt cfg inp cur = .chunk i next ∧
      ((∃ out', expandChunk out i = some out' ∧ fits cfg.outCap out'.length = true ∧
          stepWith cfg s = .next (s.completed next out')) ∨
       (∃ out', expandChunk out i = some out' ∧ fits cfg.outCap out'.length = false ∧
          stepWith cfg s = .next (s.failed .capacityExceeded cur next)) ∨
       (expandChunk out i = none ∧ stepWith cfg s = .next (s.failed .invalidBackreference cur next)))) := by
  have hstep := stepWith_of_busy (cfg := cfg) hs hi he hc ho
  by_cases h : exp ≤ out.length
  · exact .inl ⟨h, by rw [hstep, if_pos h]⟩
  · rw [if_neg h] at hstep
    have hlt : out.length < exp := by omega
    cases hd : decodeAt cfg inp cur with
    | endOfStream => rw [hd] at hstep; exact .inr (.inl ⟨hlt, decodeAt_eq_endOfStream.1 hd, hstep⟩)
    | truncated f =>
      rw [hd] at hstep
      exact .inr (.inr (.inl ⟨f, hlt, rfl, hstep.trans (truncateChunk_eq ..)⟩))
    | chunk i next =>
      rw [hd] at hstep
      have hn := (decodeAt_chunk hd).2.1
      refine .inr (.inr (.inr ⟨i, next, hlt, rfl, ?_⟩))
      rw [hstep, hn]
      exact execWith_cases hs hc ho hfit

/-- How long the output of a chunk is. -/
theorem length_expandChunk {out out' : Memory} {i : Instr} (h : expandChunk out i = some out') :
    out'.length = out.length + appendedBytes i ∧ out <+: out' := by
  cases i with
  | lit sel p => cases h; exact ⟨by simp [appendedBytes], List.prefix_append _ _⟩
  | bref w off len =>
    simp only [expandChunk] at h
    split at h
    · cases h; exact ⟨by simp [appendedBytes], List.prefix_append _ _⟩
    · cases h

end Sys2Proof.Machine
end

