-- ==== Sys2Proof/Tests/Slice0.lean ====
section
/-! SUPPORT. The author's own tests: the well-formedness smoke test, words written out from the spec's formats, single
steps with the results of the spec's vectors (95_test_vectors.md, the vector named beside each), and a witness for the
hypotheses of every statement. -/

namespace Sys2Proof.Tests

open Sys2Proof.Machine

/-! ## Helpers -/

/-- A running command at a chunk boundary. -/
def running (inp : Memory) (exp cur : Nat) (out : Memory) : State :=
  { State.reset with status := .busy, inp := some inp, exp := some exp, cur := some cur, out := some out }

/-- The next state of an outcome, or the reset state where there is none. -/
def after (o : Outcome) : State :=
  match o with
  | .next s => s
  | .fault _ => State.reset
  | .refused _ => State.reset

/-- The other value of BYTE_BIT_ORDER (20_memory.md R51). -/
def lsbConfig : Config := { engineConfig with byteBitOrder := .lsbFirst }

/-- A bounded instance (00_scope.md R6). -/
def boundedConfig : Config := { engineConfig with outCap := some 3, inMax := some 2 }

/-- A running command at a boundary meets the invariant. -/
theorem running_inv {inp : Memory} {exp cur : Nat} {out : Memory} (he : exp < 2 ^ 32) (hc : cur ≤ 8 * inp.length)
    (ho : out.length ≤ 65535) (h1 : 1 ≤ exp) : (running inp exp cur out).Inv engineConfig := by
  refine ⟨⟨rfl, rfl, rfl, rfl, rfl, rfl, rfl, rfl⟩, inp, exp, cur, out, rfl, rfl, rfl, rfl, rfl, rfl,
    ⟨fun m h => (by cases h), he, hc⟩, fun m h => (by cases h), .inr ⟨h1, ?_⟩⟩
  have : largestChunk engineConfig = 65535 := by decide
  omega

/-- A command that has ended in an error, InvalidBackreference at its first chunk (vector B8). -/
def failedCommand : State := after (step (running [0x8E] 1 0 []))

/-- It meets the invariant. -/
theorem failedCommand_inv : failedCommand.Inv engineConfig := by
  refine ⟨⟨rfl, rfl, rfl, rfl, rfl, rfl, rfl, rfl⟩, [0x8E], 1, 7, .invalidBackreference, 0, rfl, rfl, by decide, rfl, rfl, by decide,
    ⟨fun m h => (by cases h), by decide, by decide⟩, by decide, fun h => (by cases h)⟩

/-! ## Well-formedness: one ill-formed chunk for each check -/

theorem test_wf_refuses_long_payload : (Instr.lit 0 (List.replicate 16 0)).wf engineConfig = false := by decide
theorem test_wf_refuses_wide_word_size : (Instr.bref 16 1 1).wf engineConfig = false := by decide
theorem test_wf_refuses_wide_offset : (Instr.bref 3 8 1).wf engineConfig = false := by decide
theorem test_wf_refuses_wide_length : (Instr.bref 3 1 8).wf engineConfig = false := by decide
theorem test_wf_takes_largest :
    (Instr.lit 0 (List.replicate 15 0)).wf engineConfig = true ∧ (Instr.bref 15 32767 32767).wf engineConfig = true := by
  decide

/-! ## Decoding: words written out bit by bit -/

/-- LIT, 30_encoding.md R72: `0 00 1100 10000000 01000000 11000000` and one pad bit (vector L1). -/
theorem test_decode_lit_sel0 :
    decodeAt engineConfig [0b00011001, 0b00000000, 0b10000001, 0b10000001] 0 = .chunk (.lit 0 [1, 2, 3]) 31 := by
  decide

/-- LIT with the selector bits `01` in stream order, sel 2: the first reading of W2. -/
theorem test_decode_lit_sel2 :
    decodeAt engineConfig [0b00111000, 0b00000001, 0b11000100, 0b00010100, 0b00110100] 0
      = .chunk (.lit 2 [0x47, 0x50, 0x58]) 39 := by
  decide

/-- LIT with the selector bits `10`, sel 1: the second reading of W2. -/
theorem test_decode_lit_sel1 :
    decodeAt engineConfig [0b01011000, 0b00011100, 0b01000001, 0b01000011, 0b01000000] 0
      = .chunk (.lit 1 [0x47, 0x50, 0x58]) 35 := by
  decide

/-- BREF, 30_encoding.md R73: `1 0100 1100 0100` and three pad bits (W3). -/
theorem test_decode_bref : decodeAt engineConfig [0b10100110, 0b00100000] 0 = .chunk (.bref 4 3 2) 13 := by decide

/-- BREF with w = 15: `1 1111 100000000000000 110000000000000` at bit 15 (vector B7). -/
theorem test_decode_bref_widest :
    decodeAt engineConfig [0x11, 0x11, 0xF8, 0x00, 0x18, 0x00, 0x00] 15 = .chunk (.bref 15 1 3) 50 := by
  decide

/-- The end of the stream at the flag, and inside a field (vectors T2 and L6). -/
theorem test_decode_ends : decodeAt engineConfig [] 0 = .endOfStream ∧ decodeAt engineConfig [0x70] 0 = .truncated 3 := by
  decide

/-- The encoder and the packing give the spec's worked bytes in both bit orders (P1, O1, O2). -/
theorem test_encode_program :
    packBits .msbFirst false (encodeProgram engineConfig [.lit 0 [1, 2, 3], .bref 4 3 2])
        = [0x19, 0x00, 0x81, 0x81, 0x4C, 0x40] ∧
      packBits .lsbFirst false (encodeProgram lsbConfig [.lit 0 [1, 2, 3], .bref 4 3 2])
        = [0x98, 0x00, 0x81, 0x81, 0x32, 0x02] := by
  decide

/-- The opcode table's match words, LIT 0 and BREF 1 (opcode_table.json). -/
theorem test_table_words : decodeTableWord 8 0 = some (.lit 0 []) ∧ decodeTableWord 8 1 = some (.bref 0 0 0) := by decide

/-! ## The BitReader under LSB_FIRST (vectors V-BR) -/

theorem test_reads_lsb_order :
    readUIntLsbFirst .lsbFirst [0xB4, 0x0F] 5 4 = .ok 13 9 ∧ readUIntMsbFirst .lsbFirst [0xB4, 0x0F] 6 4 = .ok 7 10 ∧
      readBytes .lsbFirst [0xB4, 0x0F] 3 1 = .ok [0xF6] 11 ∧ readBit .lsbFirst [0xB4, 0x0F] 16 = .endOfStream := by
  decide

/-! ## Single steps -/

/-- LIT appends its payload and moves the cursor (vector L1). -/
theorem test_step_lit :
    let t := after (step (running [0x19, 0x00, 0x81, 0x81] 3 0 []))
    t.status = .busy ∧ t.out = some [1, 2, 3] ∧ t.cur = some 31 ∧ t.n = none := by
  decide

/-- A payload cut short enters TruncatedChunk at the chunk's start, with no output (vector L5). -/
theorem test_step_lit_cut :
    let t := after (step (running [0x05, 0x54, 0xCD] 4 0 []))
    t.status = .error ∧ t.errKind = some .truncatedChunk ∧ t.errPos = some 0 ∧ t.out = none := by
  decide

/-- BREF copies over its own bytes (vector B3, second chunk). -/
theorem test_step_bref_overlap :
    let t := after (step (running [0x19, 0x00, 0x81, 0x81, 0x27] 6 31 [1, 2, 3]))
    t.status = .busy ∧ t.out = some [1, 2, 3, 2, 3, 2] ∧ t.cur = some 40 := by
  decide

/-- BREF before the start of the output enters InvalidBackreference (vector B4, second chunk). -/
theorem test_step_bref_illegal :
    let t := after (step (running [0x19, 0x00, 0x81, 0x81, 0x33, 0x00] 6 31 [1, 2, 3]))
    t.status = .error ∧ t.errKind = some .invalidBackreference ∧ t.errPos = some 31 ∧ t.out = none := by
  decide

/-- A cut length wins over an illegal offset (vector B10, second chunk). -/
theorem test_step_cut_before_illegal :
    (after (step (running [0x11, 0x11, 0x81, 0x38] 4 15 [0x11]))).errKind = some .truncatedChunk := by
  decide

/-- A whole chunk in the last seven bits is a chunk and no padding: `BREF 1 1 1` = `1 0001 1 1` at the end of the 48 bits
`LIT 0 [61] | BREF 4 1 1 | BREF 4 1 1 | BREF 1 1 1` (30_encoding.md R70, R73; log 13). -/
theorem test_step_last_chunk_in_seven_bits :
    let t := after (step (running [0x11, 0x0D, 0x48, 0x8A, 0x44, 0x47] 4 41 [0x61, 0x61, 0x61]))
    t.status = .busy ∧ t.cur = some 48 ∧ t.out = some [0x61, 0x61, 0x61, 0x61] := by
  decide

/-- The check comes before the flag: EXP = 0 finishes with nothing read (vector T1). -/
theorem test_step_finishes_first :
    let t := after (step (running [0xFF, 0xFF] 0 0 []))
    t.status = .done ∧ t.cur = some 0 ∧ t.out = some [] := by
  decide

/-- The same bytes under LSB_FIRST are another chunk (vector O4). -/
theorem test_step_other_bit_order :
    let t := after (stepWith lsbConfig (running [0x19, 0x00, 0x81, 0x81, 0x4C, 0x40] 5 0 []))
    t.errKind = some .invalidBackreference ∧ t.errPos = some 0 := by
  decide

/-- The host reports the error position as (byte, bit): 31 is (3, 7) (vector B4). -/
theorem test_byte_position : bytePosition 31 = (3, 7) := by decide

/-! ## Witnesses: the hypotheses of every statement can be met -/

theorem witness_StepKeepsInvariant :
    ∃ s s' : State, s.Inv engineConfig ∧ step s = .next s' ∧ s.status = .busy :=
  ⟨running [0x19, 0x00, 0x81, 0x81] 3 0 [], _, running_inv (by decide) (by decide) (by decide) (by decide), rfl, rfl⟩

theorem witness_InvariantStatesNeverStop : ∃ (cfg : Config) (s : State), s.Inv cfg ∧ s.status = .busy :=
  ⟨engineConfig, running [0x8E] 1 0 [], running_inv (by decide) (by decide) (by decide) (by decide), rfl⟩

theorem witness_HostMovesEstablishInvariant :
    ∃ (cfg : Config) (inp : Memory) (exp : Nat) (s t : State), issueDecode cfg inp exp s = .next t :=
  ⟨boundedConfig, [1, 2], 2 ^ 32 - 1, State.reset, _, rfl⟩

theorem witness_DecodeCommandStartsClean :
    ∃ (cfg : Config) (inp : Memory) (exp : Nat) (s : State), s.status ≠ .busy ∧
      (∀ m, cfg.inMax = some m → inp.length ≤ m) ∧ exp < 2 ^ cfg.expWidth :=
  ⟨boundedConfig, [1, 2], 2 ^ 32 - 1, State.reset, by decide, by intro m h; cases h; decide, by decide⟩

theorem witness_DecodeCommandRefusals :
    (running [] 0 0 []).status = .busy ∧
    (State.reset.status ≠ .busy ∧ boundedConfig.inMax = some 2 ∧ 2 < [1, 2, 3].length) ∧
    (State.reset.status ≠ .busy ∧ (∀ m, engineConfig.inMax = some m → 0 ≤ m) ∧ 2 ^ engineConfig.expWidth ≤ 2 ^ 32) :=
  ⟨rfl, ⟨by decide, rfl, by decide⟩, by decide, by simp, by decide⟩

theorem witness_HostReadsOutputOnlyWhenDone :
    ((running [] 0 0 []).status = .busy ∧
      (after (step (running [] 0 0 [7]))).status = .done ∧ (after (step (running [] 0 0 [7]))).out = some [7]) ∧
    (State.reset.Inv engineConfig ∧ State.reset.status = .idle) ∧
    failedCommand.Inv engineConfig ∧ failedCommand.status = .error :=
  ⟨by decide,
    ⟨⟨⟨rfl, rfl, rfl, rfl, rfl, rfl, rfl, rfl⟩, rfl, rfl, rfl, rfl, rfl, rfl⟩, rfl⟩,
    failedCommand_inv, rfl⟩

/-- After the command's end too, and at IDLE. -/
theorem witness_HostReadsCommandArguments :
    (∃ t u, issueDecode boundedConfig [0x00] 0 State.reset = .next t ∧ runWith boundedConfig 2 t = .next u ∧
      u.status = .done) ∧
    State.reset.Inv engineConfig ∧ State.reset.status = .idle :=
  ⟨⟨_, _, rfl, rfl, rfl⟩,
    ⟨⟨rfl, rfl, rfl, rfl, rfl, rfl, rfl, rfl⟩, rfl, rfl, rfl, rfl, rfl, rfl⟩, rfl⟩

theorem witness_HostReadsErrorOnlyWhenError :
    (State.reset.Inv engineConfig ∧ State.reset.status ≠ .error) ∧
    failedCommand.Inv engineConfig ∧ failedCommand.status = .error :=
  ⟨⟨⟨⟨rfl, rfl, rfl, rfl, rfl, rfl, rfl, rfl⟩, rfl, rfl, rfl, rfl, rfl, rfl⟩, by decide⟩,
    failedCommand_inv, rfl⟩

theorem witness_StreamBitOrder : ∃ (inp : Memory) (k : Nat), k < 8 * inp.length ∧ k = 7 := ⟨[0xB4], 7, by decide, rfl⟩

theorem witness_ReadBitAgreesWithFieldReads :
    (7 < 8 * ([0xB4] : Memory).length) ∧ (8 * ([0xB4] : Memory).length ≤ 8) := by decide

theorem witness_LsbFirstReadPutsFirstBitLowest : avail [0xB4] 0 < 9 ∧ 8 ≤ avail [0xB4] 0 := by decide

theorem witness_MsbFirstReadPutsFirstBitHighest : avail [0xB4] 5 < 4 ∧ 3 ≤ avail [0xB4] 5 := by decide

theorem witness_ReadBytesIsLsbFirstPerByte :
    avail [0xB4, 0x0F] 9 < 8 * 1 ∧ 8 * 1 ≤ avail [0xB4, 0x0F] 8 ∧ ([0xF0] : List Byte)[0]? = some 0xF0 := by decide

theorem witness_AlignedPayloadByteIsReversed : memRead [0xB4, 0x0F] 1 = some 0x0F := by decide

theorem witness_FlagIsTheWholeOpcode :
    decodeAt engineConfig [0b00000000] 0 = .chunk (.lit 0 []) 7 ∧
      decodeAt engineConfig [0b10001110] 0 = .chunk (.bref 1 1 1) 7 := by decide

theorem witness_LiteralFormat : decodeAt engineConfig [0b00000000] 1 = .chunk (.lit 0 []) 8 := by decide

theorem witness_BackrefFormat : decodeAt engineConfig [0b00010000] 3 = .chunk (.bref 0 0 0) 8 := by decide

theorem witness_DecodeEncodeAgree :
    (Instr.lit 0 (List.replicate 15 1)).wf lsbConfig = true ∧ (Instr.bref 15 32767 0).wf engineConfig = true := by decide

theorem witness_ChunkLengthBounds :
    (Instr.lit 0 []).wf engineConfig = true ∧ (Instr.bref 15 32767 32767).wf engineConfig = true := by decide

theorem witness_EveryPatternDecodes : 524299 ≤ avail (List.replicate 65538 0) 5 := by
  rw [avail, List.length_replicate]

theorem witness_LiteralAppendsPayload :
    ∃ (s : State) (cs : Nat) (out : Memory), s.status = .busy ∧ s.cur = some cs ∧ s.out = some out :=
  ⟨running [0x00] 1 0 [9], 0, [9], rfl, rfl, rfl⟩

/-- The offsets 1 and |out|, the two ends of the legal range. -/
theorem witness_BackrefRepeatsLastBytes :
    ∃ (s : State) (cs : Nat) (out : Memory), s.status = .busy ∧ s.cur = some cs ∧ s.out = some out ∧
      (1 ≤ 1 ∧ 1 ≤ out.length) ∧ (1 ≤ 3 ∧ 3 ≤ out.length) :=
  ⟨running [0x00] 9 0 [1, 2, 3], 0, [1, 2, 3], rfl, rfl, rfl, by decide, by decide⟩

theorem witness_BackrefCopiesSequentially :
    ∃ (s : State) (cs : Nat) (out : Memory), s.status = .busy ∧ s.cur = some cs ∧ s.out = some out ∧
      1 ≤ out.length ∧ out.length = 1 :=
  ⟨running [0x00] 9 0 [0x41], 0, [0x41], rfl, rfl, rfl, by decide, rfl⟩

/-- The offsets 0 and |out| + 1, next to the two ends of the legal range. -/
theorem witness_IllegalOffsetRaises :
    ∃ (s : State) (cs : Nat) (out : Memory), s.status = .busy ∧ s.cur = some cs ∧ s.out = some out ∧
      (0 = 0 ∨ out.length < 0) ∧ (4 = 0 ∨ out.length < 4) :=
  ⟨running [0x00] 9 0 [1, 2, 3], 0, [1, 2, 3], rfl, rfl, rfl, by decide, by decide⟩

/-- A payload that just fits and one that just does not; a copy likewise; and the offsets on both sides of the legal
ones. -/
theorem witness_CapacityExceededExactlyWhenFull :
    ∃ (c : Nat) (s : State) (out : Memory), boundedConfig.outCap = some c ∧ out.length ≤ c ∧ s.status = .busy ∧
      s.cur = some 0 ∧ s.out = some out ∧ out.length + [7].length ≤ c ∧ ¬ out.length + [7, 8].length ≤ c ∧
      ¬ (2 = 0 ∨ out.length < 2) ∧ out.length + 1 ≤ c ∧ ¬ out.length + 2 ≤ c ∧
      (0 = 0 ∨ out.length < 0) ∧ (3 = 0 ∨ out.length < 3) :=
  ⟨3, running [0x00] 9 0 [1, 2], [1, 2], rfl, by decide, rfl, rfl, rfl, by decide, by decide, by decide, by decide,
    by decide, by decide, by decide⟩

/-- A chunk after which the command goes on, and one after which it does not. -/
theorem witness_ChunkFrame :
    (∃ t, exec (.lit 0 [7]) (running [0x00] 9 0 [1]) = .next t ∧ t.status = .busy) ∧
      ∃ t, exec (.bref 2 0 1) (running [0x00] 9 0 [1]) = .next t ∧ t.status ≠ .busy :=
  ⟨⟨_, rfl, rfl⟩, _, rfl, by decide⟩

theorem witness_ChunkDoesNotReadExpectedLength :
    (∃ t, exec (.lit 0 [7, 8]) (running [0x00] 1 0 []) = .next t ∧ t.status = .busy) ∧
      ∃ t, exec (.bref 2 3 3) (running [0x00] 2 0 [1]) = .next t ∧ t.status ≠ .busy :=
  ⟨⟨_, rfl, rfl⟩, _, rfl, by decide⟩

theorem witness_ChunkOutsideCommandFaults : State.reset.status ≠ .busy := by decide

theorem witness_StepRunsDecodedChunk :
    ∃ (s : State) (inp : Memory) (next : Nat) (out : Memory) (i : Instr), s.status = .busy ∧ s.inp = some inp ∧
      s.exp = some 6 ∧ s.cur = some 31 ∧ s.out = some out ∧ out.length < 6 ∧
      decodeAt engineConfig inp 31 = .chunk i next :=
  ⟨running [0x19, 0x00, 0x81, 0x81, 0x2F] 6 31 [1, 2, 3], [0x19, 0x00, 0x81, 0x81, 0x2F], 40, [1, 2, 3],
    .bref 2 3 3, rfl, rfl, rfl, rfl, rfl, by decide, by decide⟩

theorem witness_FinishAtExpectedLength :
    ∃ (s : State) (exp : Nat) (out : Memory), s.status = .busy ∧ s.exp = some exp ∧ s.out = some out ∧
      exp ≤ out.length ∧ exp = 3 :=
  ⟨running [0xFF] 3 0 [1, 2, 3], 3, [1, 2, 3], rfl, rfl, rfl, by decide, rfl⟩

theorem witness_StreamEndAtFlagFinishes :
    ∃ (s : State) (inp : Memory) (cur : Nat), s.status = .busy ∧ s.inp = some inp ∧ s.exp = some 5 ∧
      s.cur = some cur ∧ s.out = some [] ∧ ([] : Memory).length < 5 ∧ 8 * inp.length ≤ cur ∧
      ∃ t, step s = .next t ∧ t.status = .done :=
  ⟨running [0xAB] 5 8 [], [0xAB], 8, rfl, rfl, rfl, rfl, rfl, by decide, by decide, _, rfl, rfl⟩

/-- A literal and a back-reference cut inside a field (vectors L6 and T7). -/
theorem witness_CutChunkRaisesTruncated :
    (∃ t, step (running [0x70] 1 0 []) = .next t ∧ t.status = .error ∧ t.errKind = some .truncatedChunk) ∧
      (∃ t, step (running [0x11, 0x05] 2 15 [0x41]) = .next t ∧ t.status = .error ∧
        t.errKind = some .truncatedChunk) ∧
      (0 < 8 * ([0x70] : Memory).length ∧ 8 * ([0x70] : Memory).length - 0 < 3 + 16) ∧
      15 < 8 * ([0x11, 0x05] : Memory).length ∧ 8 * ([0x11, 0x05] : Memory).length - 15 < 5 :=
  ⟨⟨_, rfl, rfl, rfl⟩, ⟨_, rfl, rfl, rfl⟩, by decide, by decide, by decide⟩

theorem witness_EngineAtRestStays : State.reset.status ≠ .busy := by decide

/-- One step for each of the two kinds of error. -/
theorem witness_ErrorRecordsKindAndChunkStart :
    (∃ t, step (running [0x70] 1 0 []) = .next t ∧ t.status = .error) ∧
      ∃ t, step (running [0x8E] 1 0 []) = .next t ∧ t.status = .error :=
  ⟨⟨_, rfl, rfl⟩, _, rfl, rfl⟩

theorem witness_OutputIsAppendOnly :
    ∃ t, step (running [0x00, 0x21, 0xF8] 1 7 []) = .next t ∧ t.out = some [0x7E] := ⟨_, rfl, by decide⟩

theorem witness_RunningStepIsOneChunk :
    ∃ t, step (running [0x00, 0x21, 0xF8] 1 0 []) = .next t ∧ t.status = .busy := ⟨_, rfl, by decide⟩

/-- Seven trailing bits, `0000000`. -/
theorem witness_TrailingBitsAlwaysTruncate :
    (running [0x00] 1 1 []).Inv engineConfig ∧ ([] : Memory).length < 1 ∧ 1 < 8 * ([0x00] : Memory).length ∧
      8 * ([0x00] : Memory).length ≤ 1 + 7 :=
  ⟨running_inv (by decide) (by decide) (by decide) (by decide), by decide, by decide, by decide⟩

/-- One trailing bit and four. -/
theorem witness_UpToFourTrailingBitsTruncate :
    (∃ s : State, s = running [0x11, 0x04] 2 15 [0x41] ∧ 15 < 8 * ([0x11, 0x04] : Memory).length ∧
      8 * ([0x11, 0x04] : Memory).length ≤ 15 + 4) ∧
      ∃ s : State, s = running [0xFF] 2 4 [0x41] ∧ 4 < 8 * ([0xFF] : Memory).length ∧
        8 * ([0xFF] : Memory).length ≤ 4 + 4 :=
  ⟨⟨_, rfl, by decide, by decide⟩, _, rfl, by decide, by decide⟩

/-- One remainder for each clause: seven zeros, `1 0000` in six bits, `1 0001 1 0`, and `1 0001 1`, which is cut. -/
theorem witness_TrailingBitsByPattern :
    bitsAt engineConfig.byteBitOrder [0b10000000] 1 7 = List.replicate 7 false ∧
    (bitsAt engineConfig.byteBitOrder [0b00100001] 2 6).take 5 = [true, false, false, false, false] ∧
    bitsAt engineConfig.byteBitOrder [0b01000110] 1 7 = [true, false, false, false, true, true, false] ∧
    bitsAt engineConfig.byteBitOrder [0b00100011] 2 6 = [true, false, false, false, true, true] ∧
    ([] : Memory).length < 1 ∧ (running [0b10000000] 1 1 []).status = .busy := by
  decide

theorem witness_EveryCommandEnds :
    ∃ t, issueDecode engineConfig [0x19, 0x00, 0x81, 0x81] 3 State.reset = .next t := ⟨_, rfl⟩

/-- A command that finishes because EXP is reached, after one chunk (vector L4's second chunk alone). -/
theorem witness_FinishedCommandConsumedWholeChunks :
    ∃ t u, issueDecode engineConfig [0x10, 0xFC] 1 State.reset = .next t ∧
      runWith engineConfig 2 t = .next u ∧ u.status = .done :=
  ⟨_, _, rfl, rfl, by decide⟩

/-- A command that ends at its first chunk (vector B8). -/
theorem witness_ErrorNamesFirstBadChunk :
    ∃ t u, issueDecode engineConfig [0x8E] 1 State.reset = .next t ∧
      runWith engineConfig 1 t = .next u ∧ u.status = .error :=
  ⟨_, _, rfl, rfl, by decide⟩

theorem witness_ProgramDecodesToItsExpansion :
    lsbConfig.outCap = none ∧ lsbConfig.inMax = none ∧ 3 < 2 ^ lsbConfig.expWidth ∧ State.reset.status ≠ .busy ∧
      (∀ i ∈ [Instr.lit 0 [1], .bref 1 1 1, .bref 2 2 3], i.wf lsbConfig = true) ∧
      expandProgram [] [.lit 0 [1], .bref 1 1 1, .bref 2 2 3] = some [1, 1, 1, 1, 1] ∧
      3 ≤ ([1, 1, 1, 1, 1] : Memory).length ∧
      ∀ j < 3, ∀ o, expandProgram [] (([.lit 0 [1], .bref 1 1 1, .bref 2 2 3] : List Instr).take j) = some o →
        o.length < 3 := by
  refine ⟨rfl, rfl, by decide, by decide, by decide, by decide, by decide, ?_⟩
  intro j hj o ho
  interval_cases j <;> cases ho <;> decide

/-- Vector T3's program: it fills three bytes exactly and falls short of EXP = 10. -/
theorem witness_ShortProgramEndsGracefully :
    (∀ i ∈ [Instr.lit 0 [0xAA], .bref 2 1 2], i.wf engineConfig = true) ∧
      expandProgram [] [.lit 0 [0xAA], .bref 2 1 2] = some [0xAA, 0xAA, 0xAA] ∧
      ([0xAA, 0xAA, 0xAA] : Memory).length < 10 ∧ 10 < 2 ^ 32 ∧ State.reset.status ≠ .busy ∧
      programBits engineConfig [.lit 0 [0xAA], .bref 2 1 2] % 8 = 0 := by
  decide

/-- One byte's literal (15 bits, vectors T6 and T7) leaves one padding bit; with two copies of 13 bits it is 41 bits
and leaves seven. -/
theorem witness_PaddedShortProgramTruncates :
    ((∀ i ∈ [Instr.lit 0 [0x41]], i.wf engineConfig = true) ∧ expandProgram [] [.lit 0 [0x41]] = some [0x41] ∧
      ([0x41] : Memory).length < 2 ∧ programBits engineConfig [.lit 0 [0x41]] % 8 = 7) ∧
    (∀ i ∈ [Instr.lit 0 [0x41], .bref 4 1 1, .bref 4 1 1], i.wf engineConfig = true) ∧
      expandProgram [] [.lit 0 [0x41], .bref 4 1 1, .bref 4 1 1] = some [0x41, 0x41, 0x41] ∧
      ([0x41, 0x41, 0x41] : Memory).length < 4 ∧
      programBits engineConfig [.lit 0 [0x41], .bref 4 1 1, .bref 4 1 1] % 8 = 1 ∧ State.reset.status ≠ .busy := by
  decide

/-- Two different pasts: after reset, and after a command that ended in an error. -/
theorem witness_OutcomeIgnoresThePast :
    ∃ t₁ t₂, issueDecode engineConfig [0x00] 1 State.reset = .next t₁ ∧
      issueDecode engineConfig [0x00] 1 (after (step (running [0x8E] 1 0 []))) = .next t₂ :=
  ⟨_, _, rfl, rfl⟩

/-- EXP = 0, and an EXP that the output passes. -/
theorem witness_OvershootIsBounded :
    (∃ t u, issueDecode engineConfig [0xFF] 0 State.reset = .next t ∧ runWith engineConfig 1 t = .next u ∧
      u.out = some []) ∧
      ∃ t u, issueDecode engineConfig [0x19, 0x00, 0x81, 0x81] 1 State.reset = .next t ∧
        runWith engineConfig 1 t = .next u ∧ u.out = some [1, 2, 3] :=
  ⟨⟨_, _, rfl, rfl, by decide⟩, _, _, rfl, rfl, by decide⟩

end Sys2Proof.Tests
end

/-! SUPPORT. The two byte spaces of 20_memory.md: which bit of an input byte a stream bit is (R51), and that the output
only grows at its end (R53). -/

namespace Sys2Proof.Machine

/-! ## The input space -/

/-- The byte that holds a stream bit below 8N exists. -/
theorem exists_memRead_of_lt {inp : Memory} {k : Nat} (h : k < 8 * inp.length) : ∃ b, memRead inp (k / 8) = some b :=
  ⟨_, List.getElem?_eq_getElem (by omega)⟩

/-- A stream bit is the bit its byte gives up at its place, in either bit order. -/
theorem bitAt_of_memRead {o : BitOrder} {inp : Memory} {k : Nat} {b : Byte} (h : memRead inp (k / 8) = some b) :
    bitAt o inp k = consumedBit o b (k % 8) := by
  rw [bitAt, h]

@[simp] theorem consumedBit_msbFirst (b : Byte) (i : Nat) : consumedBit .msbFirst b i = b.getLsbD (7 - i) := rfl

@[simp] theorem consumedBit_lsbFirst (b : Byte) (i : Nat) : consumedBit .lsbFirst b i = b.getLsbD i := rfl

/-- A bit of a byte as R51 writes it, a shift and a mask. -/
theorem toNat_getLsbD_eq_shift_mask (b : Byte) (i : Nat) : (b.getLsbD i).toNat = (b.toNat >>> i) &&& 1 := by
  rw [← BitVec.testBit_toNat, Nat.toNat_testBit, Nat.and_one_is_mod, Nat.shiftRight_eq_div_pow]

/-- Settles O11: the byte of stream bit k exists, and in each bit order the bit consumed from it is the shift and mask
of R51. -/
theorem streamBitOrder : Obligations.StreamBitOrder := by
  intro inp k hk
  obtain ⟨b, hb⟩ := exists_memRead_of_lt hk
  refine ⟨b, hb, ?_, ?_⟩
  · rw [bitAt_of_memRead hb, consumedBit_msbFirst, toNat_getLsbD_eq_shift_mask]
  · rw [bitAt_of_memRead hb, consumedBit_lsbFirst, toNat_getLsbD_eq_shift_mask]

/-! ## The output space -/

theorem outAppend_unbounded (out : Memory) (v : Byte) : outAppend none out v = some (out ++ [v]) := rfl

theorem exists_outRead_iff {out : Memory} {a : Nat} : (∃ v, outRead out a = some v) ↔ a < out.length := by
  rw [← Option.ne_none_iff_exists', ne_eq, outRead_eq_none, Nat.not_le]

/-- Every address of the shorter output reads the same in an output that extends it. -/
theorem outRead_of_prefix {out out' : Memory} (h : out <+: out') {a : Nat} (ha : a < out.length) :
    outRead out' a = outRead out a := by
  obtain ⟨p, rfl⟩ := h
  exact outRead_append_left ha

/-- A running step that answers a next state either finishes the command, or has found a value in every element of the
command that `stepWith_cases` asks for. -/
theorem stepWith_next_of_busy {cfg : Config} {s t : State} {out : Memory} (hs : s.status = .busy)
    (ho : s.out = some out) (h : stepWith cfg s = .next t) :
    t = s.finish ∨ ∃ inp exp cur, s.inp = some inp ∧ s.exp = some exp ∧ s.cur = some cur := by
  simp only [stepWith, engineStep, hs, chunkStep, ho, needCommand_some] at h
  obtain ⟨exp, he, h⟩ := needCommand_eq_next.1 h
  split at h
  · cases h
    exact .inl rfl
  · obtain ⟨inp, hi, h⟩ := needCommand_eq_next.1 h
    obtain ⟨cur, hc, -⟩ := needCommand_eq_next.1 h
    exact .inr ⟨inp, exp, cur, hi, he, hc⟩

/-- All that a step of any instance can do to an output within OUT_CAP: the command ends in an error and there is no
output any more, or the new output extends the old. -/
theorem stepWith_out {cfg : Config} {s t : State} {out : Memory} (ho : s.out = some out)
    (hfit : fits cfg.outCap out.length = true) (h : stepWith cfg s = .next t) :
    t.out = none ∨ ∃ out', t.out = some out' ∧ out <+: out' := by
  have unchanged {u : State} (hu : u.out = s.out) : u.out = none ∨ ∃ out', u.out = some out' ∧ out <+: out' :=
    .inr ⟨out, hu.trans ho, List.prefix_rfl⟩
  by_cases hs : s.status = .busy
  · rcases stepWith_next_of_busy hs ho h with rfl | ⟨inp, exp, cur, hi, he, hc⟩
    · exact unchanged rfl
    · rcases stepWith_cases hs hi he hc ho hfit with ⟨-, hn⟩ | ⟨-, -, hn⟩ | ⟨f, -, -, hn⟩ |
        ⟨i, next, -, -, ⟨out', hx, -, hn⟩ | ⟨out', -, -, hn⟩ | ⟨-, hn⟩⟩ <;> cases hn.symm.trans h
      -- it finishes at the expected length, or at the end of the stream
      · exact unchanged rfl
      · exact unchanged rfl
      -- the chunk is cut
      · exact .inl rfl
      -- the chunk completes
      · exact .inr ⟨out', rfl, (length_expandChunk hx).2⟩
      -- the chunk does not fit, or its offset is illegal
      · exact .inl rfl
      · exact .inl rfl
  · rw [stepWith_of_not_busy hs] at h
    cases h
    exact unchanged rfl

/-- No step rewrites the output: a new output, where there is one, extends the old. -/
theorem step_out_prefix {s t : State} {out out' : Memory} (h : step s = .next t) (ho : s.out = some out)
    (ho' : t.out = some out') : out <+: out' := by
  rw [step_eq] at h
  rcases stepWith_out ho (fits_none _) h with hnone | ⟨o, hsome, hp⟩
  · cases hnone.symm.trans ho'
  · cases hsome.symm.trans ho'
    exact hp

/-- Settles O39: an append puts one byte at the end, a read has a value exactly below the length, and a step's output
extends the one before. -/
theorem outputIsAppendOnly : Obligations.OutputIsAppendOnly := by
  refine ⟨fun out v => ?_, fun out a => exists_outRead_iff, fun s t out out' h ho ho' => ?_⟩
  · refine ⟨out ++ [v], outAppend_unbounded out v, by simp, ?_, fun a ha => outRead_append_left ha⟩
    rw [outRead_append_right (le_refl _), Nat.sub_self]
    rfl
  · have hp := step_out_prefix h ho ho'
    exact ⟨hp, fun a ha => outRead_of_prefix hp ha⟩

end Sys2Proof.Machine

/-! SUPPORT. The formats of the two chunks, bit by bit (30_encoding.md R71 to R73): which bits a field's value stands for,
and which bits the decoder answers a literal or a back-reference at. -/

namespace Sys2Proof.Machine

/-! ## The bits of a field -/

/-- An lsb-first field has the value v exactly where v fits it and stands in its bits, lowest first
(40_bitreader.md R92). -/
theorem lsbFirst_bitsAt_eq_iff {o : BitOrder} {inp : Memory} {cur m v : Nat} :
    lsbFirst (bitsAt o inp cur m) = v ↔ v < 2 ^ m ∧ ∀ i < m, bitAt o inp (cur + i) = v.testBit i := by
  constructor
  · rintro rfl
    refine ⟨by simpa using lsbFirst_lt (bitsAt o inp cur m), fun i hi => ?_⟩
    simp [testBit_lsbFirst, bitsAt, hi]
  · rintro ⟨hv, hbits⟩
    have hfield : bitsAt o inp cur m = lsbBits m v := List.map_congr_left fun i hi => hbits i (List.mem_range.1 hi)
    rw [hfield, lsbFirst_lsbBits hv]

/-- An msb-first field has the value v exactly where v fits it and stands in its bits, highest first
(40_bitreader.md R93). -/
theorem msbFirst_bitsAt_eq_iff {o : BitOrder} {inp : Memory} {cur m v : Nat} :
    msbFirst (bitsAt o inp cur m) = v ↔ v < 2 ^ m ∧ ∀ i < m, bitAt o inp (cur + i) = v.testBit (m - 1 - i) := by
  constructor
  · rintro rfl
    refine ⟨by simpa using msbFirst_lt (bitsAt o inp cur m), fun i hi => ?_⟩
    have hbit := testBit_msbFirst (bitsAt o inp cur m) (i := i) (by simpa using hi)
    rw [length_bitsAt] at hbit
    rw [hbit, List.getD_eq_getElem _ _ (by simpa using hi), getElem_bitsAt]
  · rintro ⟨hv, hbits⟩
    have hfield : bitsAt o inp cur m = msbBits m v := List.map_congr_left fun i hi => hbits i (List.mem_range.1 hi)
    rw [hfield, msbFirst_msbBits hv]

/-- A payload byte is b exactly where the bits of b stand, lowest first (40_bitreader.md R94). -/
theorem payloadByte_eq_iff {o : BitOrder} {inp : Memory} {cur : Nat} {b : Byte} :
    payloadByte o inp cur = b ↔ ∀ i < 8, bitAt o inp (cur + i) = b.getLsbD i := by
  constructor
  · rintro rfl i hi
    exact (getLsbD_payloadByte o inp cur hi).symm
  · intro hbits
    apply BitVec.eq_of_getLsbD_eq
    intro i hi
    rw [getLsbD_payloadByte o inp cur hi, hbits i hi]

/-- The bytes read for a payload are p exactly where the bits of each byte of p stand in its place. -/
theorem payload_eq_iff {o : BitOrder} {inp : Memory} {cur : Nat} {p : List Byte} :
    ((List.range p.length).map fun j => payloadByte o inp (cur + 8 * j)) = p ↔
      ∀ (j : Nat) (b : Byte), p[j]? = some b → ∀ i < 8, bitAt o inp (cur + 8 * j + i) = b.getLsbD i := by
  constructor
  · intro hp j b hj
    rw [← payloadByte_eq_iff]
    have hlt : j < p.length := (List.getElem?_eq_some_iff.1 hj).1
    rw [← hp] at hj
    simpa [hlt] using hj
  · intro hbits
    apply List.ext_getElem (by simp)
    intro j _ hj
    simpa using payloadByte_eq_iff.2 (hbits j p[j] (List.getElem?_eq_getElem hj))

/-! ## The fields of a chunk -/

/-- From the bit after a literal's flag: a chunk is decoded exactly where its fields lie within the stream and read as
they are, and it is a literal (30_encoding.md R72). -/
theorem decodeLiteral_eq_chunk {cfg : Config} {inp : Memory} {cur next : Nat} {i : Instr} :
    decodeLiteral cfg inp cur = .chunk i next ↔ ∃ sel p, i = .lit sel p ∧
      next = cur + 2 + cfg.litWidths.get sel + 8 * p.length ∧ next ≤ 8 * inp.length ∧
      lsbFirst (bitsAt cfg.byteBitOrder inp cur 2) = sel.val ∧
      lsbFirst (bitsAt cfg.byteBitOrder inp (cur + 2) (cfg.litWidths.get sel)) = p.length ∧
      ((List.range p.length).map fun j =>
        payloadByte cfg.byteBitOrder inp (cur + 2 + cfg.litWidths.get sel + 8 * j)) = p := by
  rw [decodeLiteral_eq]
  dsimp only
  unfold avail
  constructor
  · intro h
    split_ifs at h
    cases h
    have hsel := lsbFirst_lt (bitsAt cfg.byteBitOrder inp cur 2)
    rw [length_bitsAt] at hsel
    refine ⟨_, _, rfl, ?_⟩
    rw [List.length_map, List.length_range]
    exact ⟨rfl, by omega, (selectorOf_val hsel).symm, rfl, rfl⟩
  · rintro ⟨sel, p, rfl, rfl, hin, hsel, hn, hp⟩
    rw [hsel, selectorOf_of_val, hn, hp, if_neg (by omega), if_neg (by omega), if_neg (by omega)]

/-- From the bit after a back-reference's flag: a chunk is decoded exactly where its fields lie within the stream and
read as they are, and it is a back-reference (30_encoding.md R73). -/
theorem decodeBackref_eq_chunk {cfg : Config} {inp : Memory} {cur next : Nat} {i : Instr} :
    decodeBackref cfg inp cur = .chunk i next ↔ ∃ w off len, i = .bref w off len ∧
      next = cur + 4 + w + w ∧ next ≤ 8 * inp.length ∧
      msbFirst (bitsAt cfg.byteBitOrder inp cur 4) = w ∧
      lsbFirst (bitsAt cfg.byteBitOrder inp (cur + 4) w) = off ∧
      lsbFirst (bitsAt cfg.byteBitOrder inp (cur + 4 + w) w) = len := by
  rw [decodeBackref_eq]
  dsimp only
  unfold avail
  constructor
  · intro h
    split_ifs at h
    cases h
    exact ⟨_, _, _, rfl, rfl, by omega, rfl, rfl, rfl⟩
  · rintro ⟨w, off, len, rfl, rfl, hin, hw, hoff, hlen⟩
    rw [hw, hoff, hlen, if_neg (by omega), if_neg (by omega), if_neg (by omega)]

/-- A chunk is decoded exactly where a flag bit is there and the kind it chooses is decoded after it
(30_encoding.md R71). -/
theorem decodeAt_eq_chunk {cfg : Config} {inp : Memory} {cur next : Nat} {i : Instr} :
    decodeAt cfg inp cur = .chunk i next ↔ cur < 8 * inp.length ∧
      ((bitAt cfg.byteBitOrder inp cur = false ∧ decodeLiteral cfg inp (cur + 1) = .chunk i next) ∨
       (bitAt cfg.byteBitOrder inp cur = true ∧ decodeBackref cfg inp (cur + 1) = .chunk i next)) := by
  rw [decodeAt_eq]
  by_cases hin : avail inp cur < 1
  · have : ¬ cur < 8 * inp.length := by unfold avail at hin; omega
    simp [hin, this]
  · have : cur < 8 * inp.length := by unfold avail at hin; omega
    cases bitAt cfg.byteBitOrder inp cur <;> simp [hin, this]

/-- Settles O17: each kind is decoded under its own flag only, and what it decodes is of that kind. -/
theorem flagIsTheWholeOpcode : Obligations.FlagIsTheWholeOpcode := by
  intro cfg inp cur next i h
  obtain ⟨-, ⟨hflag, hlit⟩ | ⟨hflag, hbref⟩⟩ := decodeAt_eq_chunk.1 h
  · obtain ⟨sel, p, rfl, -⟩ := decodeLiteral_eq_chunk.1 hlit
    simp [hflag]
  · obtain ⟨w, off, len, rfl, -⟩ := decodeBackref_eq_chunk.1 hbref
    simp [hflag]

/-- A literal is decoded exactly where its flag is 0 and its fields read as they are. -/
theorem decodeAt_eq_lit {cfg : Config} {inp : Memory} {cur next : Nat} {sel : Fin 4} {p : List Byte} :
    decodeAt cfg inp cur = .chunk (.lit sel p) next ↔
      next = cur + 3 + cfg.litWidths.get sel + 8 * p.length ∧ next ≤ 8 * inp.length ∧
      bitAt cfg.byteBitOrder inp cur = false ∧
      lsbFirst (bitsAt cfg.byteBitOrder inp (cur + 1) 2) = sel.val ∧
      lsbFirst (bitsAt cfg.byteBitOrder inp (cur + 3) (cfg.litWidths.get sel)) = p.length ∧
      ((List.range p.length).map fun j =>
        payloadByte cfg.byteBitOrder inp (cur + 3 + cfg.litWidths.get sel + 8 * j)) = p := by
  rw [decodeAt_eq_chunk, decodeLiteral_eq_chunk, decodeBackref_eq_chunk]
  constructor
  · rintro ⟨-, ⟨hflag, _, _, ⟨⟩, hfields⟩ | ⟨-, _, _, _, ⟨⟩, -⟩⟩
    obtain ⟨hnext, hin, hrest⟩ := hfields
    exact ⟨hnext, hin, hflag, hrest⟩
  · rintro ⟨hnext, hin, hflag, hrest⟩
    exact ⟨by omega, .inl ⟨hflag, sel, p, rfl, hnext, hin, hrest⟩⟩

/-- A back-reference is decoded exactly where its flag is 1 and its fields read as they are. -/
theorem decodeAt_eq_bref {cfg : Config} {inp : Memory} {cur next w off len : Nat} :
    decodeAt cfg inp cur = .chunk (.bref w off len) next ↔
      next = cur + 5 + w + w ∧ next ≤ 8 * inp.length ∧
      bitAt cfg.byteBitOrder inp cur = true ∧
      msbFirst (bitsAt cfg.byteBitOrder inp (cur + 1) 4) = w ∧
      lsbFirst (bitsAt cfg.byteBitOrder inp (cur + 5) w) = off ∧
      lsbFirst (bitsAt cfg.byteBitOrder inp (cur + 5 + w) w) = len := by
  rw [decodeAt_eq_chunk, decodeLiteral_eq_chunk, decodeBackref_eq_chunk]
  constructor
  · rintro ⟨-, ⟨-, _, _, ⟨⟩, -⟩ | ⟨hflag, _, _, _, ⟨⟩, hfields⟩⟩
    obtain ⟨hnext, hin, hrest⟩ := hfields
    exact ⟨hnext, hin, hflag, hrest⟩
  · rintro ⟨hnext, hin, hflag, hrest⟩
    exact ⟨by omega, .inr ⟨hflag, w, off, len, rfl, hnext, hin, hrest⟩⟩

/-! ## The formats -/

/-- The selector field holds sel exactly where the two bits of sel stand, lowest first (30_encoding.md R72). -/
theorem selector_eq_iff {o : BitOrder} {inp : Memory} {cur : Nat} {sel : Fin 4} :
    lsbFirst (bitsAt o inp cur 2) = sel.val ↔
      bitAt o inp cur = sel.val.testBit 0 ∧ bitAt o inp (cur + 1) = sel.val.testBit 1 := by
  rw [lsbFirst_bitsAt_eq_iff, Nat.forall_lt_succ_right, Nat.forall_lt_succ_right]
  simp [sel.isLt]

/-- Settles O18: the fields a literal is decoded from, each given by its bits. -/
theorem literalFormat : Obligations.LiteralFormat := by
  intro cfg inp cur next sel p
  rw [decodeAt_eq_lit, selector_eq_iff, lsbFirst_bitsAt_eq_iff, payload_eq_iff]
  constructor
  · rintro ⟨hnext, hin, hflag, ⟨hsel0, hsel1⟩, ⟨hlt, hcount⟩, hpayload⟩
    exact ⟨by omega, hin, hlt, hflag, hsel0, hsel1, hcount, hpayload⟩
  · rintro ⟨hnext, hin, hlt, hflag, hsel0, hsel1, hcount, hpayload⟩
    exact ⟨by omega, hin, hflag, ⟨hsel0, hsel1⟩, ⟨hlt, hcount⟩, hpayload⟩

/-- Settles O19: the fields a back-reference is decoded from, each given by its bits. -/
theorem backrefFormat : Obligations.BackrefFormat := by
  intro cfg inp cur next w off len
  rw [decodeAt_eq_bref, msbFirst_bitsAt_eq_iff, lsbFirst_bitsAt_eq_iff, lsbFirst_bitsAt_eq_iff]
  constructor
  · rintro ⟨hnext, hin, hflag, ⟨hw, hwbits⟩, ⟨hoff, hoffbits⟩, hlen, hlenbits⟩
    exact ⟨by omega, hin, hw, hoff, hlen, hflag, hwbits, hoffbits, hlenbits⟩
  · rintro ⟨hnext, hin, hw, hoff, hlen, hflag, hwbits, hoffbits, hlenbits⟩
    exact ⟨by omega, hin, hflag, ⟨hw, hwbits⟩, ⟨hoff, hoffbits⟩, hlen, hlenbits⟩

end Sys2Proof.Machine

/-! SUPPORT. The values the field reads answer, bit by bit (40_bitreader.md R92 to R94). -/

namespace Sys2Proof.Machine

/-- Settles O13: where m bits are left, the lsb-first field they make is the value read, and its bits are theirs. -/
theorem lsbFirstReadPutsFirstBitLowest : Obligations.LsbFirstReadPutsFirstBitLowest := by
  refine ⟨fun o inp cur m => ⟨readUIntLsbFirst_eq_endOfStream.2, fun hle => ?_⟩, by decide, by decide⟩
  obtain ⟨hlt, hbits⟩ := lsbFirst_bitsAt_eq_iff.1 (Eq.refl (lsbFirst (bitsAt o inp cur m)))
  exact ⟨_, readUIntLsbFirst_eq_ok.2 ⟨hle, rfl, rfl⟩, hlt, fun i hi => (hbits i hi).symm⟩

/-- Settles O14: where m bits are left, the msb-first field they make is the value read, and its bits are theirs. -/
theorem msbFirstReadPutsFirstBitHighest : Obligations.MsbFirstReadPutsFirstBitHighest := by
  refine ⟨fun o inp cur m => ⟨readUIntMsbFirst_eq_endOfStream.2, fun hle => ?_⟩, by decide, by decide, by decide⟩
  obtain ⟨hlt, hbits⟩ := msbFirst_bitsAt_eq_iff.1 (Eq.refl (msbFirst (bitsAt o inp cur m)))
  exact ⟨_, readUIntMsbFirst_eq_ok.2 ⟨hle, rfl, rfl⟩, hlt, fun i hi => (hbits i hi).symm⟩

/-- A read of k bytes answers p exactly where 8k bits are left, p is k bytes long and the bits of each byte of p stand in
its place, lowest first. -/
theorem readBytes_eq_ok_iff_bits {o : BitOrder} {inp : Memory} {cur k c : Nat} {p : List Byte} :
    readBytes o inp cur k = .ok p c ↔ 8 * k ≤ avail inp cur ∧ cur + 8 * k = c ∧ p.length = k ∧
      ∀ (j : Nat) (b : Byte), p[j]? = some b → ∀ i < 8, bitAt o inp (cur + 8 * j + i) = b.getLsbD i := by
  rw [readBytes_eq_ok]
  constructor
  · rintro ⟨hle, hp, hc⟩
    have hlen : p.length = k := by simp [← hp]
    subst hlen
    exact ⟨hle, hc, rfl, payload_eq_iff.1 hp⟩
  · rintro ⟨hle, hc, rfl, hbits⟩
    exact ⟨hle, payload_eq_iff.2 hbits, hc⟩

/-- Settles O15: where 8k bits are left the read answers, and what it answers is k bytes made of those bits. -/
theorem readBytesIsLsbFirstPerByte : Obligations.ReadBytesIsLsbFirstPerByte := by
  refine ⟨fun o inp cur k => ⟨readBytes_eq_endOfStream.2, fun hle => ?_⟩, by decide, by decide⟩
  have hread := readBytes_eq_ok.2 ⟨hle, Eq.refl ((List.range k).map fun j => payloadByte o inp (cur + 8 * j)), rfl⟩
  obtain ⟨-, -, hlen, hbits⟩ := readBytes_eq_ok_iff_bits.1 hread
  exact ⟨_, hread, hlen, fun j b hj i hi => (hbits j b hj i hi).symm⟩

end Sys2Proof.Machine

/-! SUPPORT. The outcome of a command is a function of its input and expected length (41_dispatch.md R118): what a step
shows is the same for every state that runs the command, whatever else that state holds. -/

namespace Sys2Proof.Machine

/-- `s` runs the command (IN, EXP) and stands at a chunk boundary with this cursor and output. The latches
and the model's own counter are left out: what the command shows does not depend on them. -/
structure State.Runs (inp : Memory) (exp cur : Nat) (out : Memory) (s : State) : Prop where
  status : s.status = .busy
  inp : s.inp = some inp
  exp : s.exp = some exp
  cur : s.cur = some cur
  out : s.out = some out
  errKind : s.errKind = none
  errPos : s.errPos = none

/-! ## What the moves of a running command show -/

theorem State.start_runs (s : State) (inp : Memory) (exp : Nat) : (s.start inp exp).Runs inp exp 0 [] :=
  ⟨rfl, rfl, rfl, rfl, rfl, rfl, rfl⟩

/-- An accepted command has run its start, and nothing else. -/
theorem issueDecode_eq_next {cfg : Config} {inp : Memory} {exp : Nat} {s t : State}
    (h : issueDecode cfg inp exp s = .next t) : t = s.start inp exp := by
  unfold issueDecode at h
  split_ifs at h
  cases h
  rfl

theorem State.failed_observe (s : State) (kind : ErrKind) (cs cur : Nat) :
    (s.failed kind cs cur).observe = (.error, none, some kind, some cs) := rfl

theorem State.cutShort_observe (s : State) (cs cur : Nat) :
    (s.cutShort cs cur).observe = (.error, none, some .truncatedChunk, some cs) := rfl

section
variable {cfg : Config} {inp out : Memory} {exp cur : Nat} {s : State}

theorem State.Runs.observe (h : s.Runs inp exp cur out) : s.observe = (.busy, some out, none, none) := by
  simp [State.observe, h.status, h.out, h.errKind, h.errPos]

theorem State.Runs.finish_observe (h : s.Runs inp exp cur out) :
    s.finish.observe = (.done, some out, none, none) := by
  simp [State.observe, h.out, h.errKind, h.errPos]

theorem State.Runs.completed (h : s.Runs inp exp cur out) (cur' : Nat) (out' : Memory) :
    (s.completed cur' out').Runs inp exp cur' out' :=
  ⟨h.status, h.inp, h.exp, rfl, rfl, h.errKind, h.errPos⟩

/-! ## A chunk and a step -/

/-- A chunk body in a running command: an illegal offset is an error, and so is an expansion that OUT_CAP does not
hold; any other chunk completes. -/
theorem State.Runs.execWith_eq (h : s.Runs inp exp cur out) (hfit : fits cfg.outCap out.length = true) (i : Instr) :
    execWith cfg i s = .next ((expandChunk out i).elim (s.failed .invalidBackreference cur (cur + chunkBits cfg i))
      fun out' => if fits cfg.outCap out'.length then s.completed (cur + chunkBits cfg i) out'
        else s.failed .capacityExceeded cur (cur + chunkBits cfg i)) := by
  rcases execWith_cases (i := i) h.status h.cur h.out hfit with
    ⟨out', hx, hfit', he⟩ | ⟨out', hx, hfit', he⟩ | ⟨hx, he⟩
  · simp [hx, hfit', he]
  · simp [hx, hfit', he]
  · simp [hx, he]

/-- One step of a command, for all the states that run it at once: they all go on at the same cursor with the same
output, or they all end showing the same outcome. -/
theorem stepWith_goes_on_or_ends (hfit : fits cfg.outCap out.length = true) (inp : Memory) (exp cur : Nat) :
    (∃ cur' out', fits cfg.outCap out'.length = true ∧
      ∀ s : State, s.Runs inp exp cur out → ∃ t, stepWith cfg s = .next t ∧ t.Runs inp exp cur' out') ∨
    (∃ o : Status × Option Memory × Option ErrKind × Option Nat, o.1 ≠ .busy ∧
      ∀ s : State, s.Runs inp exp cur out → ∃ t, stepWith cfg s = .next t ∧ t.observe = o) := by
  have hstep {s : State} (h : s.Runs inp exp cur out) :=
    stepWith_of_busy (cfg := cfg) h.status h.inp h.exp h.cur h.out
  by_cases hlen : exp ≤ out.length
  · exact .inr ⟨(.done, some out, none, none), nofun, fun s h =>
      ⟨s.finish, (hstep h).trans (if_pos hlen), h.finish_observe⟩⟩
  cases hd : decodeAt cfg inp cur with
  | endOfStream =>
    refine .inr ⟨(.done, some out, none, none), nofun, fun s h => ⟨s.finish, ?_, h.finish_observe⟩⟩
    rw [hstep h, if_neg hlen, hd]
  | truncated f =>
    refine .inr ⟨(.error, none, some .truncatedChunk, some cur), nofun, fun s h =>
      ⟨_, .trans ?_ (truncateChunk_eq cfg inp cur f s), s.cutShort_observe ..⟩⟩
    rw [hstep h, if_neg hlen, hd]
  | chunk i next =>
    have hexec {s : State} (h : s.Runs inp exp cur out) : stepWith cfg s = execWith cfg i s := by
      rw [hstep h, if_neg hlen, hd]
    cases hx : expandChunk out i with
    | none =>
      refine .inr ⟨(.error, none, some .invalidBackreference, some cur), nofun, fun s h =>
        ⟨_, .trans (hexec h) ?_, s.failed_observe _ _ (cur + chunkBits cfg i)⟩⟩
      rw [h.execWith_eq hfit, hx, Option.elim_none]
    | some out' =>
      by_cases hfit' : fits cfg.outCap out'.length = true
      · refine .inl ⟨cur + chunkBits cfg i, out', hfit', fun s h =>
          ⟨_, .trans (hexec h) ?_, h.completed (cur + chunkBits cfg i) out'⟩⟩
        rw [h.execWith_eq hfit, hx, Option.elim_some, if_pos hfit']
      · refine .inr ⟨(.error, none, some .capacityExceeded, some cur), nofun, fun s h =>
          ⟨_, .trans (hexec h) ?_, s.failed_observe _ _ (cur + chunkBits cfg i)⟩⟩
        rw [h.execWith_eq hfit, hx, Option.elim_some, if_neg hfit']

/-! ## A run -/

theorem runWith_succ_of_next {t : State} {k : Nat} (h : stepWith cfg s = .next t) :
    runWith cfg (k + 1) s = runWith cfg k t := by
  rw [runWith, h]

/-- Outside a command a run leaves the state as it is. -/
theorem runWith_of_not_busy (hs : s.status ≠ .busy) (k : Nat) : runWith cfg k s = .next s := by
  induction k with
  | zero => rfl
  | succ k ih => rw [runWith_succ_of_next (stepWith_of_not_busy hs), ih]

/-- R118: what k steps of a command show is one value, fixed before the state that runs the command is chosen. -/
theorem runWith_observe_determined (inp : Memory) (exp k cur : Nat) (out : Memory)
    (hfit : fits cfg.outCap out.length = true) :
    ∃ o, ∀ s : State, s.Runs inp exp cur out → ∃ u, runWith cfg k s = .next u ∧ u.observe = o := by
  induction k generalizing cur out with
  | zero => exact ⟨_, fun s h => ⟨s, rfl, h.observe⟩⟩
  | succ k ih =>
    rcases stepWith_goes_on_or_ends hfit inp exp cur with ⟨cur', out', hfit', hgo⟩ | ⟨o, ho, hend⟩
    · obtain ⟨o, hrun⟩ := ih cur' out' hfit'
      refine ⟨o, fun s h => ?_⟩
      obtain ⟨t, hst, ht⟩ := hgo s h
      rw [runWith_succ_of_next hst]
      exact hrun t ht
    · refine ⟨o, fun s h => ?_⟩
      obtain ⟨t, hst, rfl⟩ := hend s h
      exact ⟨t, by rw [runWith_succ_of_next hst, runWith_of_not_busy ho], rfl⟩

end

/-- Settles O48: both states run the command from its start, so what k steps show is the one value of the command. -/
theorem outcomeIgnoresThePast : Obligations.OutcomeIgnoresThePast := by
  intro cfg inp exp k s₁ s₂ t₁ t₂ h₁ h₂
  rw [issueDecode_eq_next h₁, issueDecode_eq_next h₂]
  obtain ⟨o, hrun⟩ := runWith_observe_determined (cfg := cfg) inp exp k 0 [] (fits_iff.2 fun _ _ => Nat.zero_le _)
  obtain ⟨u₁, hu₁, ho₁⟩ := hrun _ (s₁.start_runs inp exp)
  obtain ⟨u₂, hu₂, ho₂⟩ := hrun _ (s₂.start_runs inp exp)
  exact ⟨u₁, u₂, hu₁, hu₂, ho₁.trans ho₂.symm⟩

end Sys2Proof.Machine

/-! SUPPORT. The invariant of the machine: what it says of a running command, that every step keeps it, and that the
host's moves establish it. -/

namespace Sys2Proof.Machine

/-- `s` runs the command (IN, EXP) and stands at a chunk boundary as the invariant has it: the elements of `Runs`, no
latch, and the cursor and the output in range. -/
structure State.AtBoundary (cfg : Config) (inp : Memory) (exp cur : Nat) (out : Memory) (s : State) : Prop where
  runs : s.Runs inp exp cur out
  latches : s.latchesEmpty
  command : CommandInRange cfg inp exp cur
  output : OutputInRange cfg exp out

/-- The invariant of a running command is that it stands at a boundary. -/
theorem State.inv_iff_of_busy {cfg : Config} {s : State} (hs : s.status = .busy) :
    s.Inv cfg ↔ ∃ inp exp cur out, s.AtBoundary cfg inp exp cur out := by
  rw [State.Inv, hs]
  constructor
  · rintro ⟨hlatch, inp, exp, cur, out, hi, he, hc, ho, hk, hp, hcmd, hout⟩
    exact ⟨inp, exp, cur, out, ⟨hs, hi, he, hc, ho, hk, hp⟩, hlatch, hcmd, hout⟩
  · rintro ⟨inp, exp, cur, out, h⟩
    exact ⟨h.latches, inp, exp, cur, out, h.runs.inp, h.runs.exp, h.runs.cur, h.runs.out, h.runs.errKind,
      h.runs.errPos, h.command, h.output⟩

@[simp] theorem State.latchesEmpty_completed (s : State) (cur : Nat) (out : Memory) :
    (s.completed cur out).latchesEmpty := ⟨rfl, rfl, rfl, rfl, rfl, rfl, rfl, rfl⟩

@[simp] theorem State.latchesEmpty_failed (s : State) (kind : ErrKind) (cs cur : Nat) :
    (s.failed kind cs cur).latchesEmpty := ⟨rfl, rfl, rfl, rfl, rfl, rfl, rfl, rfl⟩

@[simp] theorem State.latchesEmpty_cutShort (s : State) (cs cur : Nat) :
    (s.cutShort cs cur).latchesEmpty := ⟨rfl, rfl, rfl, rfl, rfl, rfl, rfl, rfl⟩

@[simp] theorem State.latchesEmpty_start (s : State) (inp : Memory) (exp : Nat) :
    (s.start inp exp).latchesEmpty := ⟨rfl, rfl, rfl, rfl, rfl, rfl, rfl, rfl⟩

@[simp] theorem State.latchesEmpty_powerOn (s : State) : (powerOn s).latchesEmpty :=
  ⟨rfl, rfl, rfl, rfl, rfl, rfl, rfl, rfl⟩

/-! ## Each way a step ends keeps the invariant -/

section
variable {cfg : Config} {inp out : Memory} {exp cur : Nat} {s : State}

theorem State.AtBoundary.inv (h : s.AtBoundary cfg inp exp cur out) : s.Inv cfg :=
  (State.inv_iff_of_busy h.runs.status).2 ⟨_, _, _, _, h⟩

theorem State.AtBoundary.fits (h : s.AtBoundary cfg inp exp cur out) : fits cfg.outCap out.length = true :=
  fits_iff.2 h.output.1

theorem State.AtBoundary.cur_le (h : s.AtBoundary cfg inp exp cur out) : cur ≤ 8 * inp.length := by
  obtain ⟨-, -, hcur⟩ := h.command
  exact hcur

/-- A finish keeps the invariant where the output is long enough or the stream has ended. -/
theorem State.AtBoundary.inv_finish (h : s.AtBoundary cfg inp exp cur out)
    (hend : exp ≤ out.length ∨ 8 * inp.length ≤ cur) : s.finish.Inv cfg :=
  ⟨h.latches, inp, exp, cur, out, h.runs.inp, h.runs.exp, h.runs.cur, h.runs.out, h.runs.errKind, h.runs.errPos,
    h.command, h.output, hend.imp_right fun hle => le_antisymm h.cur_le hle⟩

/-- An error of the chunk at the cursor keeps the invariant. -/
theorem State.AtBoundary.inv_failed (h : s.AtBoundary cfg inp exp cur out) {kind : ErrKind} {cur' : Nat}
    (hpos : cur < 8 * inp.length) (hcur : cur' ≤ 8 * inp.length)
    (hcap : kind = .capacityExceeded → cfg.outCap ≠ none) : (s.failed kind cur cur').Inv cfg :=
  ⟨s.latchesEmpty_failed .., inp, exp, cur', kind, cur, h.runs.inp, h.runs.exp, rfl, rfl, rfl, rfl,
    ⟨h.command.1, h.command.2.1, hcur⟩, hpos, hcap⟩

/-- A cut chunk keeps the invariant: but for the model's counter it is an error. -/
theorem State.AtBoundary.inv_cutShort (h : s.AtBoundary cfg inp exp cur out) {cur' : Nat}
    (hpos : cur < 8 * inp.length) (hcur : cur' ≤ 8 * inp.length) : (s.cutShort cur cur').Inv cfg :=
  h.inv_failed (kind := .truncatedChunk) hpos hcur nofun

/-- A completed chunk keeps the invariant: from an output short of EXP it appends at most M bytes
(41_dispatch.md R116). -/
theorem State.AtBoundary.completed (h : s.AtBoundary cfg inp exp cur out) {i : Instr} {next : Nat} {out' : Memory}
    (hlt : out.length < exp) (hd : decodeAt cfg inp cur = .chunk i next) (hx : expandChunk out i = some out')
    (hfit : Machine.fits cfg.outCap out'.length = true) :
    (s.completed next out').AtBoundary cfg inp exp next out' := by
  obtain ⟨hwf, -, hnext⟩ := decodeAt_chunk hd
  have hlen := (length_expandChunk hx).1
  have hM := appendedBytes_le hwf
  exact ⟨h.runs.completed next out', s.latchesEmpty_completed .., ⟨h.command.1, h.command.2.1, hnext⟩,
    fits_iff.1 hfit, .inr (by omega)⟩

/-- The cursor a cut chunk leaves is after the failed read and within the stream. -/
theorem cutShort_cursor_le {f : Nat} (hd : decodeAt cfg inp cur = .truncated f) (draws : Nat) :
    f + Config.freeCursor draws % (avail inp f + 1) ≤ 8 * inp.length := by
  have hf := (decodeAt_truncated hd).2
  have hmod : Config.freeCursor draws % (avail inp f + 1) ≤ avail inp f :=
    Nat.le_of_lt_succ (Nat.mod_lt _ (Nat.succ_pos _))
  unfold avail at hmod ⊢
  omega

/-- A step of a running command from a boundary answers a next state that meets the invariant. -/
theorem State.AtBoundary.exists_stepWith (h : s.AtBoundary cfg inp exp cur out) :
    ∃ t, stepWith cfg s = .next t ∧ t.Inv cfg := by
  have hlt_of_chunk {i next} (hd : decodeAt cfg inp cur = .chunk i next) : cur < 8 * inp.length :=
    (decodeAt_eq_chunk.1 hd).1
  rcases stepWith_cases h.runs.status h.runs.inp h.runs.exp h.runs.cur h.runs.out h.fits with
    ⟨hlen, hn⟩ | ⟨-, hend, hn⟩ | ⟨f, -, hd, hn⟩ |
    ⟨i, next, hlt, hd, ⟨out', hx, hfit, hn⟩ | ⟨out', hx, hfull, hn⟩ | ⟨-, hn⟩⟩
  · exact ⟨_, hn, h.inv_finish (.inl hlen)⟩
  · exact ⟨_, hn, h.inv_finish (.inr hend)⟩
  · have hpos := decodeAt_truncated hd
    exact ⟨_, hn, h.inv_cutShort (by omega) (cutShort_cursor_le hd _)⟩
  · exact ⟨_, hn, (h.completed hlt hd hx hfit).inv⟩
  · refine ⟨_, hn, h.inv_failed (hlt_of_chunk hd) (decodeAt_chunk hd).2.2 fun _ hcap => ?_⟩
    rw [hcap, fits_none] at hfull
    cases hfull
  · exact ⟨_, hn, h.inv_failed (hlt_of_chunk hd) (decodeAt_chunk hd).2.2 nofun⟩

end

/-- Settles O4: a running command stands at a boundary, from which every way a step ends keeps the invariant; outside a
command the state stays. -/
theorem invariantStatesNeverStop : Obligations.InvariantStatesNeverStop := by
  intro cfg s hinv
  by_cases hs : s.status = .busy
  · obtain ⟨_, _, _, _, h⟩ := (State.inv_iff_of_busy hs).1 hinv
    exact h.exists_stepWith
  · exact ⟨s, stepWith_of_not_busy hs, hinv⟩

/-- What a step of any instance answers from an invariant state meets the invariant. -/
theorem stepWith_keeps_inv {cfg : Config} {s t : State} (hinv : s.Inv cfg) (h : stepWith cfg s = .next t) :
    t.Inv cfg := by
  obtain ⟨t', ht', hinv'⟩ := invariantStatesNeverStop cfg s hinv
  cases h.symm.trans ht'
  exact hinv'

/-- Settles O3: the step of the engine is the step of one instance. -/
theorem stepKeepsInvariant : Obligations.StepKeepsInvariant := by
  intro s s' hinv h
  rw [step_eq] at h
  exact stepWith_keeps_inv hinv h

/-! ## The host's moves -/

/-- The IN_MAX test of a decode command fails exactly where the input is within IN_MAX. -/
theorem inMax_test_eq_false {cfg : Config} {inp : Memory} :
    (cfg.inMax.any fun m => decide (m < inp.length)) = false ↔ ∀ m, cfg.inMax = some m → inp.length ≤ m := by
  cases cfg.inMax <;> simp

/-- A decode command is accepted exactly outside a command and within the two limits (41_dispatch.md R111). -/
theorem issueDecode_eq_next_iff {cfg : Config} {inp : Memory} {exp : Nat} {s t : State} :
    issueDecode cfg inp exp s = .next t ↔
      s.status ≠ .busy ∧ (∀ m, cfg.inMax = some m → inp.length ≤ m) ∧ exp < 2 ^ cfg.expWidth ∧
        t = s.start inp exp := by
  rw [issueDecode, ← inMax_test_eq_false, ← Nat.not_le]
  by_cases hs : s.status = .busy
  · simp [hs]
  by_cases hm : (cfg.inMax.any fun m => decide (m < inp.length)) = true
  · simp [hs, hm]
  · by_cases he : 2 ^ cfg.expWidth ≤ exp <;> simp [hs, hm, he, eq_comm]

/-- An accepted command stands at its first boundary. -/
theorem issueDecode_atBoundary {cfg : Config} {inp : Memory} {exp : Nat} {s t : State}
    (h : issueDecode cfg inp exp s = .next t) : t.AtBoundary cfg inp exp 0 [] := by
  obtain ⟨-, hm, he, rfl⟩ := issueDecode_eq_next_iff.1 h
  exact ⟨s.start_runs inp exp, s.latchesEmpty_start .., ⟨hm, he, Nat.zero_le _⟩, fun _ _ => Nat.zero_le _, .inl rfl⟩

theorem powerOn_inv (cfg : Config) (s : State) : (powerOn s).Inv cfg :=
  ⟨s.latchesEmpty_powerOn, rfl, rfl, rfl, rfl, rfl, rfl⟩

/-- Settles O5: an accepted command stands at its first boundary, and reset leaves no value anywhere. -/
theorem hostMovesEstablishInvariant : Obligations.HostMovesEstablishInvariant :=
  ⟨fun _ _ _ _ _ h => (issueDecode_atBoundary h).inv, powerOn_inv⟩

/-- Settles O1: each element of the reset state, as it is written. -/
theorem resetIsIdleWithNoValues : Obligations.ResetIsIdleWithNoValues :=
  ⟨rfl, rfl, rfl, rfl, rfl, State.reset.latchesEmpty_powerOn, rfl, rfl⟩

/-- Settles O2: the reset state is what a power-on reset makes of itself. -/
theorem resetMeetsInvariant : Obligations.ResetMeetsInvariant := fun cfg => powerOn_inv cfg State.reset

/-- Settles O6: within the limits the command is accepted, and its start leaves nothing of the previous one. -/
theorem decodeCommandStartsClean : Obligations.DecodeCommandStartsClean := by
  intro cfg inp exp s hs hm he
  exact issueDecode_eq_next_iff.2 ⟨hs, hm, he, rfl⟩

/-- Settles O7: the three tests of a command, in their order. -/
theorem decodeCommandRefusals : Obligations.DecodeCommandRefusals := by
  intro cfg inp exp s
  refine ⟨fun hs => if_pos hs, fun hs m hm hlt => ?_, fun hs hm he => ?_⟩
  · have htest : (cfg.inMax.any fun m => decide (m < inp.length)) = true := by simp [hm, hlt]
    rw [issueDecode, if_neg hs, if_pos htest]
  · rw [issueDecode, if_neg hs, inMax_test_eq_false.2 hm, if_neg Bool.false_ne_true, if_pos he]

/-- Settles O8: a reset leaves the reset state, whose output the host finds without a value. -/
theorem resetAbandonsCommand : Obligations.ResetAbandonsCommand :=
  fun s => ⟨rfl, rfl, rfl, rfl, s.latchesEmpty_powerOn, rfl⟩

/-! ## The host's reads -/

/-- The host's two reads of an output that holds a value, once the command has ended. -/
theorem hostReadOut_of_some {s : State} {out : Memory} (hs : s.status ≠ .busy) (ho : s.out = some out) :
    hostReadOut s = .next out ∧ hostReadOutLength s = .next out.length := by
  simp [hostReadOut, hostReadOutLength, hs, ho]

/-- The host's two reads of an output that holds none fault, each with the reason why it holds none. -/
theorem hostReadOut_of_none {s : State} (hs : s.status ≠ .busy) (ho : s.out = none) :
    hostReadOut s = .fault (noOutput s) ∧ hostReadOutLength s = .fault (noOutput s) := by
  simp [hostReadOut, hostReadOutLength, hs, ho]

/-- Settles O9: BUSY refuses; otherwise the reads answer what `out` holds, which the invariant gives by status. -/
theorem hostReadsOutputOnlyWhenDone : Obligations.HostReadsOutputOnlyWhenDone := by
  refine fun s => ⟨fun hs => ⟨if_pos hs, if_pos hs⟩, fun out hs ho => hostReadOut_of_some (by simp [hs]) ho,
    fun cfg hinv => ⟨fun hs => ?_, fun hs => ?_, fun hs => ?_⟩⟩
  all_goals rw [State.Inv, hs] at hinv
  · obtain ⟨-, _, _, _, out, -, -, -, ho, -⟩ := hinv
    exact ⟨out, ho⟩
  · obtain ⟨-, -, -, -, ho, -⟩ := hinv
    simpa [noOutput, hs] using hostReadOut_of_none (by simp [hs]) ho
  · obtain ⟨-, _, _, _, _, _, -, -, -, ho, -⟩ := hinv
    simpa [noOutput, hs] using hostReadOut_of_none (by simp [hs]) ho

/-- Outside ERROR the invariant leaves the error registers without a value. -/
theorem State.Inv.error_registers_none {cfg : Config} {s : State} (hinv : s.Inv cfg) (hs : s.status ≠ .error) :
    s.errKind = none ∧ s.errPos = none := by
  obtain ⟨-, hinv⟩ := hinv
  split at hinv
  · obtain ⟨-, -, -, -, hk, hp⟩ := hinv
    exact ⟨hk, hp⟩
  · obtain ⟨_, _, _, _, -, -, -, -, hk, hp, -⟩ := hinv
    exact ⟨hk, hp⟩
  · obtain ⟨_, _, _, _, -, -, -, -, hk, hp, -⟩ := hinv
    exact ⟨hk, hp⟩
  · exact absurd ‹_› hs

theorem ErrKind.code_bounds (kind : ErrKind) : 1 ≤ kind.code ∧ kind.code ≤ 3 := by
  cases kind <;> decide

theorem ErrKind.code_eq_three {kind : ErrKind} (h : kind.code = 3) : kind = .capacityExceeded := by
  cases kind with
  | truncatedChunk => cases h
  | invalidBackreference => cases h
  | capacityExceeded => rfl

/-- Settles O51: the registers hold no value outside ERROR, and in ERROR a kind and a position in range. -/
theorem hostReadsErrorOnlyWhenError : Obligations.HostReadsErrorOnlyWhenError := by
  refine fun cfg s hinv => ⟨fun hs => ?_, fun hs => ?_⟩
  · obtain ⟨hk, hp⟩ := hinv.error_registers_none hs
    simp [hostReadErrKind, hostReadErrPos, hk, hp]
  · rw [State.Inv, hs] at hinv
    obtain ⟨-, inp, _, _, kind, pos, hi, -, -, -, hk, hp, -, hpos, hcap⟩ := hinv
    refine ⟨inp, kind.code, pos, hi, ?_, kind.code_bounds.1, kind.code_bounds.2,
      fun h => hcap (ErrKind.code_eq_three h), ?_, hpos⟩
    · rw [hostReadErrKind, hk, need_some]
    · rw [hostReadErrPos, hp, need_some, bytePosition]

end Sys2Proof.Machine

/-! SUPPORT. The decoder against the encoder (30_encoding.md R71 to R80): a chunk is decoded exactly where its encoding
stands, and whether one is decoded is a matter of the bits that its first fields announce. -/

namespace Sys2Proof.Machine

/-! ## One field -/

theorem bitsAt_one (o : BitOrder) (inp : Memory) (cur : Nat) : bitsAt o inp cur 1 = [bitAt o inp cur] := by
  simp [bitsAt]

/-- The first bits of a range are a range. -/
theorem take_bitsAt (o : BitOrder) (inp : Memory) (cur : Nat) {a m : Nat} (h : a ≤ m) :
    (bitsAt o inp cur m).take a = bitsAt o inp cur a := by
  obtain ⟨b, rfl⟩ := Nat.exists_eq_add_of_le h
  rw [bitsAt_add, List.take_left' (length_bitsAt ..)]

/-- Two fields stand one after the other exactly where each stands in its place. -/
theorem bitsAt_eq_append_iff {o : BitOrder} {inp : Memory} {cur m : Nat} {a b : List Bool} :
    bitsAt o inp cur (a.length + m) = a ++ b ↔
      bitsAt o inp cur a.length = a ∧ bitsAt o inp (cur + a.length) m = b := by
  rw [bitsAt_add]
  exact ⟨fun h => List.append_inj h (length_bitsAt ..), fun ⟨ha, hb⟩ => by rw [ha, hb]⟩

/-- A value that fits a field is read lsb-first exactly where it is written. -/
theorem bitsAt_eq_lsbBits_iff {o : BitOrder} {inp : Memory} {cur m v : Nat} (hv : v < 2 ^ m) :
    bitsAt o inp cur m = lsbBits m v ↔ lsbFirst (bitsAt o inp cur m) = v := by
  constructor
  · intro h
    rw [h, lsbFirst_lsbBits hv]
  · intro h
    have hbits := lsbBits_lsbFirst (bitsAt o inp cur m)
    rw [length_bitsAt, h] at hbits
    exact hbits.symm

/-- A value that fits a field is read msb-first exactly where it is written. -/
theorem bitsAt_eq_msbBits_iff {o : BitOrder} {inp : Memory} {cur m v : Nat} (hv : v < 2 ^ m) :
    bitsAt o inp cur m = msbBits m v ↔ msbFirst (bitsAt o inp cur m) = v := by
  constructor
  · intro h
    rw [h, msbFirst_msbBits hv]
  · intro h
    have hbits := msbBits_msbFirst (bitsAt o inp cur m)
    rw [length_bitsAt, h] at hbits
    exact hbits.symm

/-- A payload is read exactly where it is written. -/
theorem bitsAt_eq_payload_iff {o : BitOrder} {inp : Memory} {cur : Nat} {p : List Byte} :
    bitsAt o inp cur (8 * p.length) = (p.flatMap fun b => lsbBits 8 b.toNat) ↔
      ((List.range p.length).map fun j => payloadByte o inp (cur + 8 * j)) = p := by
  constructor
  · exact payload_of_bits
  · intro h
    rw [← flatMap_payload, h]

/-! ## One chunk -/

@[simp] theorem length_encode (cfg : Config) (i : Instr) : (encode cfg i).length = chunkBits cfg i := by
  cases i with
  | lit sel p => exact Laws.EncodeLength.lit sel p cfg
  | bref w off len => exact Laws.EncodeLength.bref w off len cfg

/-- The bits of a literal stand at a cursor exactly where its fields read as they are. -/
theorem bitsAt_eq_encode_lit_iff {cfg : Config} {inp : Memory} {cur : Nat} {sel : Fin 4} {p : List Byte}
    (hp : p.length < 2 ^ cfg.litWidths.get sel) :
    bitsAt cfg.byteBitOrder inp cur (literalBits cfg sel p.length) = encode cfg (.lit sel p) ↔
      bitAt cfg.byteBitOrder inp cur = false ∧
      lsbFirst (bitsAt cfg.byteBitOrder inp (cur + 1) 2) = sel.val ∧
      lsbFirst (bitsAt cfg.byteBitOrder inp (cur + 3) (cfg.litWidths.get sel)) = p.length ∧
      ((List.range p.length).map fun j =>
        payloadByte cfg.byteBitOrder inp (cur + 3 + cfg.litWidths.get sel + 8 * j)) = p := by
  have hsplit : literalBits cfg sel p.length = [false].length + ((lsbBits 2 sel.val).length +
      ((lsbBits (cfg.litWidths.get sel) p.length).length + 8 * p.length)) := by
    simp only [literalBits, List.length_singleton, length_lsbBits]
    omega
  have henc : encode cfg (.lit sel p) = [false] ++ (lsbBits 2 sel.val ++
      (lsbBits (cfg.litWidths.get sel) p.length ++ p.flatMap fun b => lsbBits 8 b.toNat)) := rfl
  rw [hsplit, henc, bitsAt_eq_append_iff, bitsAt_eq_append_iff, bitsAt_eq_append_iff, List.length_singleton, bitsAt_one,
    length_lsbBits, length_lsbBits, bitsAt_eq_lsbBits_iff sel.isLt, bitsAt_eq_lsbBits_iff hp, bitsAt_eq_payload_iff,
    List.singleton_inj]

/-- The bits of a back-reference stand at a cursor exactly where its fields read as they are. -/
theorem bitsAt_eq_encode_bref_iff {cfg : Config} {inp : Memory} {cur w off len : Nat}
    (hw : w < 2 ^ 4) (hoff : off < 2 ^ w) (hlen : len < 2 ^ w) :
    bitsAt cfg.byteBitOrder inp cur (backrefBits w) = encode cfg (.bref w off len) ↔
      bitAt cfg.byteBitOrder inp cur = true ∧
      msbFirst (bitsAt cfg.byteBitOrder inp (cur + 1) 4) = w ∧
      lsbFirst (bitsAt cfg.byteBitOrder inp (cur + 5) w) = off ∧
      lsbFirst (bitsAt cfg.byteBitOrder inp (cur + 5 + w) w) = len := by
  have hsplit : backrefBits w = [true].length + ((msbBits 4 w).length + ((lsbBits w off).length + w)) := by
    simp only [backrefBits, List.length_singleton, length_msbBits, length_lsbBits]
    omega
  have henc : encode cfg (.bref w off len) = [true] ++ (msbBits 4 w ++ (lsbBits w off ++ lsbBits w len)) := rfl
  rw [hsplit, henc, bitsAt_eq_append_iff, bitsAt_eq_append_iff, bitsAt_eq_append_iff, List.length_singleton, bitsAt_one,
    length_msbBits, length_lsbBits, bitsAt_eq_msbBits_iff hw, bitsAt_eq_lsbBits_iff hoff, bitsAt_eq_lsbBits_iff hlen,
    List.singleton_inj]

/-- A chunk is decoded exactly where its encoding stands: it is well formed, it ends its own length after its start and
within the stream, and the bits between are its encoding. -/
theorem decodeAt_eq_chunk_iff_encoded {cfg : Config} {inp : Memory} {cur next : Nat} {i : Instr} :
    decodeAt cfg inp cur = .chunk i next ↔ i.wf cfg = true ∧ next = cur + chunkBits cfg i ∧ next ≤ 8 * inp.length ∧
      bitsAt cfg.byteBitOrder inp cur (chunkBits cfg i) = encode cfg i := by
  constructor
  · intro h
    obtain ⟨hwf, hnext, hin⟩ := decodeAt_chunk h
    refine ⟨hwf, hnext, hin, ?_⟩
    cases i with
    | lit sel p =>
      obtain ⟨-, -, hfields⟩ := decodeAt_eq_lit.1 h
      exact (bitsAt_eq_encode_lit_iff (wf_lit.1 hwf)).2 hfields
    | bref w off len =>
      obtain ⟨-, -, hfields⟩ := decodeAt_eq_bref.1 h
      obtain ⟨hw, hoff, hlen⟩ := wf_bref.1 hwf
      exact (bitsAt_eq_encode_bref_iff hw hoff hlen).2 hfields
  · rintro ⟨hwf, hnext, hin, hbits⟩
    cases i with
    | lit sel p =>
      rw [chunkBits_lit, literalBits] at hnext
      exact decodeAt_eq_lit.2 ⟨by omega, hin, (bitsAt_eq_encode_lit_iff (wf_lit.1 hwf)).1 hbits⟩
    | bref w off len =>
      obtain ⟨hw, hoff, hlen⟩ := wf_bref.1 hwf
      rw [chunkBits_bref, backrefBits] at hnext
      exact decodeAt_eq_bref.2 ⟨by omega, hin, (bitsAt_eq_encode_bref_iff hw hoff hlen).1 hbits⟩

/-- Settles O20: the packed stream has the chunk's encoding at its place, and there the chunk is decoded. -/
theorem decodeEncodeAgree : Obligations.DecodeEncodeAgree := by
  intro cfg i before after pad hwf
  rw [length_encode]
  have hbits := bitsAt_packBits cfg.byteBitOrder pad before (encode cfg i) after
  have hroom := le_avail_packBits cfg.byteBitOrder pad before (encode cfg i) after
  rw [length_encode] at hbits hroom
  have hpos := three_le_chunkBits cfg i
  refine decodeAt_eq_chunk_iff_encoded.2 ⟨hwf, rfl, ?_, hbits⟩
  unfold avail at hroom
  omega

/-! ## How many bits a chunk announces -/

/-- The bits of the chunk at a cursor, as its first fields announce them: the word size of a back-reference, the
selector and the count of a literal (30_encoding.md R72, R73). -/
def announcedBits (cfg : Config) (inp : Memory) (cur : Nat) : Nat :=
  if bitAt cfg.byteBitOrder inp cur then backrefBits (msbFirst (bitsAt cfg.byteBitOrder inp (cur + 1) 4))
  else
    let sel := selectorOf (lsbFirst (bitsAt cfg.byteBitOrder inp (cur + 1) 2))
    literalBits cfg sel (lsbFirst (bitsAt cfg.byteBitOrder inp (cur + 3) (cfg.litWidths.get sel)))

theorem three_le_announcedBits (cfg : Config) (inp : Memory) (cur : Nat) : 3 ≤ announcedBits cfg inp cur := by
  unfold announcedBits literalBits backrefBits
  dsimp only
  split <;> omega

/-- With a bit at the flag, the chunk is cut exactly where fewer bits remain than it announces
(60_exceptions.md R171). -/
theorem exists_decodeAt_truncated_iff {cfg : Config} {inp : Memory} {cur : Nat} (h : cur < 8 * inp.length) :
    (∃ f, decodeAt cfg inp cur = .truncated f) ↔ avail inp cur < announcedBits cfg inp cur := by
  have hflag : ¬ avail inp cur < 1 := by unfold avail; omega
  rw [decodeAt_eq, if_neg hflag]
  unfold announcedBits literalBits backrefBits
  cases bitAt cfg.byteBitOrder inp cur with
  | true =>
    rw [if_pos rfl, if_pos rfl, decodeBackref_eq]
    dsimp only
    unfold avail
    split_ifs <;> simp <;> omega
  | false =>
    have hcount : cur + 1 + 2 = cur + 3 := rfl
    rw [if_neg Bool.false_ne_true, if_neg Bool.false_ne_true, decodeLiteral_eq, hcount]
    dsimp only
    unfold avail
    split_ifs <;> simp <;> omega

/-- Where a bit remains and no chunk is cut, a chunk is decoded. -/
theorem exists_decodeAt_chunk {cfg : Config} {inp : Memory} {cur : Nat}
    (h : announcedBits cfg inp cur ≤ avail inp cur) : ∃ i next, decodeAt cfg inp cur = .chunk i next := by
  have hpos := three_le_announcedBits cfg inp cur
  have hin : cur < 8 * inp.length := by unfold avail at h; omega
  cases hd : decodeAt cfg inp cur with
  | chunk i next => exact ⟨i, next, rfl⟩
  | endOfStream => exact absurd (decodeAt_eq_endOfStream.1 hd) (by omega)
  | truncated f => exact absurd ((exists_decodeAt_truncated_iff hin).1 ⟨f, hd⟩) (by omega)

/-! ## The chunks of the engine of this spec -/

theorem engine_litWidths_bounds (sel : Fin 4) :
    4 ≤ engineConfig.litWidths.get sel ∧ engineConfig.litWidths.get sel ≤ 16 := by
  fin_cases sel <;> decide

/-- The longest literal has a 16-bit count with every bit 1. -/
theorem engine_literalBits_bounds (sel : Fin 4) {n : Nat} (hn : n < 2 ^ engineConfig.litWidths.get sel) :
    7 ≤ literalBits engineConfig sel n ∧ literalBits engineConfig sel n ≤ 524299 := by
  obtain ⟨hmin, hmax⟩ := engine_litWidths_bounds sel
  have := Nat.pow_le_pow_right (by omega : 2 > 0) hmax
  unfold literalBits
  omega

theorem backrefBits_bounds {w : Nat} (hw : w < 2 ^ 4) : 5 ≤ backrefBits w ∧ backrefBits w ≤ 35 := by
  unfold backrefBits
  omega

/-- Settles O21: the two kinds' bounds, and a chunk at each bound. -/
theorem chunkLengthBounds : Obligations.ChunkLengthBounds := by
  refine ⟨fun i hwf => ⟨length_encode .., ?_⟩, fun w off len hwf => ?_, fun sel p => ?_, ?_, rfl, rfl, rfl⟩
  · cases i with
    | lit sel p =>
      have hbounds := engine_literalBits_bounds sel (wf_lit.1 hwf)
      rw [chunkBits_lit]
      omega
    | bref w off len =>
      have hbounds := backrefBits_bounds (wf_bref.1 hwf).1
      rw [chunkBits_bref]
      omega
  · exact (backrefBits_bounds (wf_bref.1 hwf).1).2
  · have hmin := (engine_litWidths_bounds sel).1
    rw [chunkBits_lit, literalBits]
    omega
  · refine ⟨List.replicate 65535 0, wf_lit.2 ?_, ?_⟩
    · rw [List.length_replicate]
      decide
    · rw [chunkBits_lit, List.length_replicate]
      decide

/-- No chunk of the engine announces more than the longest chunk's bits. -/
theorem engine_announcedBits_le (inp : Memory) (cur : Nat) : announcedBits engineConfig inp cur ≤ 524299 := by
  unfold announcedBits
  split
  · have hw := msbFirst_lt (bitsAt engineConfig.byteBitOrder inp (cur + 1) 4)
    rw [length_bitsAt] at hw
    exact (backrefBits_bounds hw).2.trans (by omega)
  · refine (engine_literalBits_bounds _ ?_).2
    simpa using lsbFirst_lt (bitsAt engineConfig.byteBitOrder inp (cur + 3) _)

/-- Settles O22: no chunk announces more bits than remain, so a chunk is decoded. -/
theorem everyPatternDecodes : Obligations.EveryPatternDecodes := by
  intro inp cur hroom
  obtain ⟨i, next, hd⟩ := exists_decodeAt_chunk ((engine_announcedBits_le inp cur).trans hroom)
  exact ⟨i, next, hd, (decodeAt_chunk hd).1⟩

/-- Settles O23: the decoder on the four words. -/
theorem knownWordsDecode : Obligations.KnownWordsDecode := by
  unfold Obligations.KnownWordsDecode
  decide

/-! ## Single reads -/

theorem lsbFirst_singleton (b : Bool) : lsbFirst [b] = b.toNat := by simp [lsbFirst]

theorem msbFirst_singleton (b : Bool) : msbFirst [b] = b.toNat := by simp [msbFirst]

/-- Settles O12: a field of width 1 has its bit's value in either assembly. -/
theorem readBitAgreesWithFieldReads : Obligations.ReadBitAgreesWithFieldReads := by
  intro o inp cur
  refine ⟨fun h => readBit_eq_ok.2 ⟨by unfold avail; omega, rfl, rfl⟩, fun h => if_pos (by unfold avail; omega), ?_, ?_⟩
  · rw [readBit, readUIntLsbFirst, bitsAt_one, lsbFirst_singleton]
  · rw [readBit, readUIntMsbFirst, bitsAt_one, msbFirst_singleton]

/-- The stream bits of the byte at a, from its first to its last consumed. -/
theorem bitAt_aligned {o : BitOrder} {inp : Memory} {a i : Nat} {b : Byte} (hb : memRead inp a = some b) (hi : i < 8) :
    bitAt o inp (8 * a + i) = consumedBit o b i := by
  have hdiv : (8 * a + i) / 8 = a := by omega
  have hmod : (8 * a + i) % 8 = i := by omega
  rw [bitAt_of_memRead (hdiv.symm ▸ hb), hmod]

theorem readBytes_one_aligned {o : BitOrder} {inp : Memory} {a : Nat} {b : Byte} (hb : memRead inp a = some b) :
    readBytes o inp (8 * a) 1 = .ok [payloadByte o inp (8 * a)] (8 * a + 8) := by
  have ha : a < inp.length := (List.getElem?_eq_some_iff.1 hb).1
  exact readBytes_eq_ok.2 ⟨by unfold avail; omega, by simp, by omega⟩

/-- Settles O16: bit i of the payload byte is stream bit 8a + i, which is bit i of the input byte, or bit 7 − i. -/
theorem alignedPayloadByteIsReversed : Obligations.AlignedPayloadByteIsReversed := by
  intro inp a b hb
  constructor
  · have hsame : payloadByte .lsbFirst inp (8 * a) = b := by
      rw [payloadByte_eq_iff]
      intro i hi
      rw [bitAt_aligned hb hi, consumedBit_lsbFirst]
    rw [readBytes_one_aligned hb, hsame]
  · refine ⟨_, readBytes_one_aligned hb, fun i hi => ?_⟩
    rw [getLsbD_payloadByte _ _ _ hi, bitAt_aligned hb hi, consumedBit_msbFirst]

/-- Two words written one after the other, as a sum. -/
theorem toNat_append_eq_add {m n : Nat} (x : BitVec m) (y : BitVec n) :
    (x ++ y).toNat = x.toNat * 2 ^ n + y.toNat := by
  rw [BitVec.toNat_append, ← Nat.shiftLeft_add_eq_or_of_lt y.isLt, Nat.shiftLeft_eq]

/-- Settles O10: each byte's weight in the concatenation is its weight in the header. -/
theorem headerLengthIsLittleEndian : Obligations.HeaderLengthIsLittleEndian := by
  intro h0 h1 h2 h3
  simp only [headerExpectedLength, toNat_append_eq_add]
  omega

end Sys2Proof.Machine

/-! SUPPORT. The two chunk bodies on the engine of this spec and on a bounded one: what they answer, and that they look
at nothing but the cursor and the output (42_literal.md, 43_backref.md). -/

namespace Sys2Proof.Machine

/-! ## All that `exec` can answer -/

theorem expandChunk_eq_none {out : Memory} {i : Instr} (h : expandChunk out i = none) :
    ∃ w off len, i = .bref w off len ∧ (off = 0 ∨ out.length < off) := by
  cases i with
  | lit sel p => cases h
  | bref w off len =>
    by_cases hoff : 1 ≤ off ∧ off ≤ out.length
    · cases h.symm.trans (if_pos hoff)
    · exact ⟨w, off, len, rfl, by omega⟩

theorem expandChunk_bref_of_illegal {out : Memory} {w off len : Nat} (h : off = 0 ∨ out.length < off) :
    expandChunk out (.bref w off len) = none := if_neg (by omega)

theorem expandChunk_bref_of_legal {out : Memory} {w off len : Nat} (h : 1 ≤ off) (hle : off ≤ out.length) :
    expandChunk out (.bref w off len) = some (out ++ copiedBytes out off len) := if_pos ⟨h, hle⟩

/-- A chunk on the engine of this spec, in a running command: it completes with what it expands to, or it is a
back-reference with an illegal offset. -/
theorem exec_of_busy {i : Instr} {s : State} {cs : Nat} {out : Memory} (hs : s.status = .busy) (hc : s.cur = some cs)
    (ho : s.out = some out) :
    exec i s = .next ((expandChunk out i).elim (s.failed .invalidBackreference cs (cs + chunkBits engineConfig i))
      fun out' => s.completed (cs + chunkBits engineConfig i) out') := by
  rw [exec_eq]
  rcases execWith_cases (cfg := engineConfig) (i := i) hs hc ho (fits_none _) with
    ⟨out', hx, -, he⟩ | ⟨out', -, hfull, -⟩ | ⟨hx, he⟩
  · rw [he, hx, Option.elim_some]
  · cases hfull
  · rw [he, hx, Option.elim_none]

theorem exec_of_expands {i : Instr} {s : State} {cs : Nat} {out out' : Memory} (hs : s.status = .busy)
    (hc : s.cur = some cs) (ho : s.out = some out) (hx : expandChunk out i = some out') :
    exec i s = .next (s.completed (cs + chunkBits engineConfig i) out') := by
  rw [exec_of_busy hs hc ho, hx, Option.elim_some]

theorem exec_of_illegal {i : Instr} {s : State} {cs : Nat} {out : Memory} (hs : s.status = .busy)
    (hc : s.cur = some cs) (ho : s.out = some out) (hx : expandChunk out i = none) :
    exec i s = .next (s.failed .invalidBackreference cs (cs + chunkBits engineConfig i)) := by
  rw [exec_of_busy hs hc ho, hx, Option.elim_none]

/-- Settles O32: no chunk body opens outside a command. -/
theorem chunkOutsideCommandFaults : Obligations.ChunkOutsideCommandFaults := by
  intro i s hs
  rw [exec_eq, execWith_of_not_busy hs]

/-- A chunk that answers a next state has found a running command, a cursor and an output. -/
theorem exists_cur_out_of_exec {i : Instr} {s t : State} (h : exec i s = .next t) :
    s.status = .busy ∧ (∃ cs, s.cur = some cs) ∧ ∃ out, s.out = some out := by
  by_cases hs : s.status = .busy
  swap
  · cases (chunkOutsideCommandFaults i s hs).symm.trans h
  cases hc : s.cur with
  | none => cases i <;> simp [exec, execLit, execBref, literalChunk, backrefChunk, openChunk, hs, hc] at h
  | some cs =>
    cases ho : s.out with
    | none => cases i <;> simp [exec, execLit, execBref, literalChunk, backrefChunk, openChunk, hs, hc, ho] at h
    | some out => exact ⟨hs, ⟨cs, rfl⟩, out, rfl⟩

/-! ## The literal -/

/-- Settles O25: a literal expands by its payload. -/
theorem literalAppendsPayload : Obligations.LiteralAppendsPayload := by
  intro sel p s cs out hs hc ho
  exact exec_of_expands hs hc ho rfl

/-! ## The back-reference -/

/-- Byte i of a copy is a byte of the output as it stood. -/
theorem getElem?_copiedBytes {out : Memory} {off len i : Nat} (h : 1 ≤ off) (hle : off ≤ out.length) (hi : i < len) :
    (copiedBytes out off len)[i]? = out[out.length - off + i % off]? := by
  have hmod : i % off < off := Nat.mod_lt _ h
  have hsrc : out.length - off + i % off < out.length := by omega
  simp [copiedBytes, hi, hsrc]

/-- Settles O26: the copy in its closed form. -/
theorem backrefRepeatsLastBytes : Obligations.BackrefRepeatsLastBytes := by
  intro w off len s cs out hs hc ho hoff hle
  exact ⟨copiedBytes out off len, length_copiedBytes .., fun i hi => getElem?_copiedBytes hoff hle hi,
    exec_of_expands hs hc ho (expandChunk_bref_of_legal hoff hle)⟩

/-- A shorter copy is the beginning of a longer one. -/
theorem copiedBytes_prefix (out : Memory) (off : Nat) {a b : Nat} (h : a ≤ b) :
    copiedBytes out off a <+: copiedBytes out off b := by
  induction b, h using Nat.le_induction with
  | base => exact List.prefix_rfl
  | succ b _ ih => exact ih.trans (copiedBytes_succ out off b ▸ List.prefix_append _ _)

/-- Byte i that a copy appends is the byte of the grown output that stands `off` before it: that byte was there when
only i bytes were copied (43_backref.md R153). -/
theorem outRead_copied {out : Memory} {off len i : Nat} (h : 1 ≤ off) (hle : off ≤ out.length) (hi : i < len) :
    outRead (out ++ copiedBytes out off len) (out.length + i)
      = outRead (out ++ copiedBytes out off len) (out.length - off + i) := by
  have hgrown : out ++ copiedBytes out off i <+: out ++ copiedBytes out off len :=
    (List.prefix_append_right_inj _).2 (copiedBytes_prefix out off hi.le)
  have hsrc : out.length - off + i < (out ++ copiedBytes out off i).length := by
    rw [List.length_append, length_copiedBytes]
    omega
  have hmod : i % off < off := Nat.mod_lt _ h
  rw [outRead_of_prefix hgrown hsrc, outRead_grown h hle, outRead_append_right (by omega), Nat.add_sub_cancel_left,
    getElem?_copiedBytes h hle hi, List.getElem?_eq_getElem (by omega), List.getD_eq_getElem _ _ (by omega)]

/-- Settles O27: the copy extends the output, and its byte i is the one `off` before it in the grown output. -/
theorem backrefCopiesSequentially : Obligations.BackrefCopiesSequentially := by
  intro w off len s cs out hs hc ho hoff hle
  refine ⟨_, _, exec_of_expands hs hc ho (expandChunk_bref_of_legal hoff hle), rfl, by simp,
    fun a ha => outRead_append_left ha, by omega, fun i hi => ⟨by omega, outRead_copied hoff hle hi⟩⟩

/-- Settles O28: an illegal offset has no expansion. -/
theorem illegalOffsetRaises : Obligations.IllegalOffsetRaises := by
  intro w off len s cs out hs hc ho hoff
  exact exec_of_illegal hs hc ho (expandChunk_bref_of_illegal hoff)

/-! ## A bounded instance -/

theorem fits_some (c size : Nat) : fits (some c) size = true ↔ size ≤ c := by simp [fits]

/-- Settles O29: the two bodies with a bound of c. -/
theorem capacityExceededExactlyWhenFull : Obligations.CapacityExceededExactlyWhenFull := by
  intro cfg c s cs out hcap hle hs hc ho
  have hfits (size : Nat) : fits cfg.outCap size = true ↔ size ≤ c := by rw [hcap, fits_some]
  have hfit := (hfits out.length).2 hle
  refine ⟨fun sel p => ?_, fun w off len => ?_⟩
  · simp only [literalChunk_eq hs hc ho hfit, hfits]
  · simp only [backrefChunk_eq hs hc ho hfit, hfits]
    by_cases hoff : off = 0 ∨ out.length < off
    · rw [if_pos hoff, if_neg (by omega)]
    · rw [if_neg hoff, if_pos (by omega)]

/-! ## Frame and noninterference -/

/-- Settles O30: both ways a chunk ends, each with what it leaves as it was. -/
theorem chunkFrame : Obligations.ChunkFrame := by
  intro i s t cs out hc ho h
  obtain ⟨hs, -, -⟩ := exists_cur_out_of_exec h
  cases hx : expandChunk out i with
  | some out' =>
    cases (exec_of_expands hs hc ho hx).symm.trans h
    obtain ⟨hlen, hpre⟩ := length_expandChunk hx
    refine ⟨rfl, rfl, rfl, rfl, s.latchesEmpty_completed .., fun _ => ⟨rfl, rfl, out', rfl, hlen, fun a ha => ?_⟩,
      fun hne => absurd hs hne⟩
    by_cases hlt : a < out.length
    · exact outRead_of_prefix hpre hlt
    · rw [outRead_eq_none.2 (by omega), outRead_eq_none.2 (by omega)]
  | none =>
    cases (exec_of_illegal hs hc ho hx).symm.trans h
    obtain ⟨w, off, len, rfl, -⟩ := expandChunk_eq_none hx
    exact ⟨rfl, rfl, rfl, rfl, s.latchesEmpty_failed .., nofun, fun _ => ⟨⟨w, off, len, rfl⟩, rfl, rfl, rfl, rfl⟩⟩

/-- Settles O31: what a chunk makes of a state depends on the cursor and the output alone, and the replaced elements
stand beside them. -/
theorem chunkDoesNotReadExpectedLength : Obligations.ChunkDoesNotReadExpectedLength := by
  intro i s t exp inp kind pos h
  obtain ⟨hs, ⟨cs, hc⟩, out, ho⟩ := exists_cur_out_of_exec h
  have h' := exec_of_busy (i := i) (s := { s with exp := exp, inp := inp, errKind := kind, errPos := pos }) hs hc ho
  rw [h']
  cases hx : expandChunk out i with
  | some out' =>
    cases (exec_of_expands hs hc ho hx).symm.trans h
    rw [if_pos (show (s.completed _ out').status = .busy from hs)]
    rfl
  | none =>
    cases (exec_of_illegal hs hc ho hx).symm.trans h
    rfl

end Sys2Proof.Machine

/-! SUPPORT. Single steps of the engine of this spec: the finish, the chunk it runs, the cut chunk, and what an error
records (41_dispatch.md section 2, 60_exceptions.md). -/

namespace Sys2Proof.Machine

/-! ## The step by its cases -/

/-- Settles O37: outside a command a step of any instance stays. -/
theorem engineAtRestStays : Obligations.EngineAtRestStays := by
  intro s hs
  rw [step_eq, stepWith_of_not_busy hs]

/-- The check of R112 comes first and needs nothing of the stream. -/
theorem stepWith_of_reached {cfg : Config} {s : State} {exp : Nat} {out : Memory} (hs : s.status = .busy)
    (he : s.exp = some exp) (ho : s.out = some out) (hlen : exp ≤ out.length) : stepWith cfg s = .next s.finish := by
  simp [stepWith, engineStep, chunkStep, hs, he, ho, hlen]

/-- Settles O34: the finish changes nothing but the status. -/
theorem finishAtExpectedLength : Obligations.FinishAtExpectedLength := by
  intro s exp out hs he ho hlen
  rw [step_eq, stepWith_of_reached hs he ho hlen]
  rfl

/-- A running step that answers a next state has found an output. -/
theorem exists_out_of_stepWith {cfg : Config} {s t : State} (hs : s.status = .busy) (h : stepWith cfg s = .next t) :
    ∃ out, s.out = some out := by
  simp only [stepWith, engineStep, hs, chunkStep] at h
  obtain ⟨out, ho, -⟩ := needCommand_eq_next.1 h
  exact ⟨out, ho⟩

section
variable {s : State} {inp out : Memory} {exp cur : Nat}
variable (hs : s.status = .busy) (hi : s.inp = some inp) (he : s.exp = some exp) (hc : s.cur = some cur)
  (ho : s.out = some out)
include hs hi he hc ho

/-- A step short of EXP is what stands at the cursor. -/
theorem step_of_short (hlt : out.length < exp) :
    step s = match decodeAt engineConfig inp cur with
      | .endOfStream => .next s.finish
      | .truncated f => truncateChunk engineConfig inp cur f s
      | .chunk i _ => exec i s := by
  rw [step_eq, stepWith_of_busy hs hi he hc ho, if_neg (by omega)]
  cases decodeAt engineConfig inp cur with
  | endOfStream => rfl
  | truncated f => rfl
  | chunk i next => exact (exec_eq i s).symm

theorem step_of_chunk (hlt : out.length < exp) {i : Instr} {next : Nat}
    (hd : decodeAt engineConfig inp cur = .chunk i next) : step s = exec i s := by
  rw [step_of_short hs hi he hc ho hlt, hd]

theorem step_of_truncated (hlt : out.length < exp) {f : Nat} (hd : decodeAt engineConfig inp cur = .truncated f) :
    step s = .next (s.cutShort cur (f + Config.freeCursor s.draws % (avail inp f + 1))) := by
  rw [step_of_short hs hi he hc ho hlt, hd]
  exact truncateChunk_eq ..

theorem step_of_endOfStream (hlt : out.length < exp) (hend : 8 * inp.length ≤ cur) : step s = .next s.finish := by
  rw [step_of_short hs hi he hc ho hlt, decodeAt_eq_endOfStream.2 hend]

/-- All that a step of the engine can answer: it finishes at EXP or at the end of the stream, the chunk is cut, or the
chunk completes or has an illegal offset. -/
theorem step_cases :
    (exp ≤ out.length ∧ step s = .next s.finish) ∨
    (out.length < exp ∧ 8 * inp.length ≤ cur ∧ step s = .next s.finish) ∨
    (∃ f, out.length < exp ∧ decodeAt engineConfig inp cur = .truncated f ∧
      step s = .next (s.cutShort cur (f + Config.freeCursor s.draws % (avail inp f + 1)))) ∨
    (∃ i next out', out.length < exp ∧ decodeAt engineConfig inp cur = .chunk i next ∧ expandChunk out i = some out' ∧
      step s = .next (s.completed next out')) ∨
    (∃ i next, out.length < exp ∧ decodeAt engineConfig inp cur = .chunk i next ∧ expandChunk out i = none ∧
      step s = .next (s.failed .invalidBackreference cur next)) := by
  rw [step_eq]
  rcases stepWith_cases (cfg := engineConfig) hs hi he hc ho (fits_none _) with h | h | h |
    ⟨i, next, hlt, hd, ⟨out', hx, -, hn⟩ | ⟨out', -, hfull, -⟩ | ⟨hx, hn⟩⟩
  · exact .inl h
  · exact .inr (.inl h)
  · exact .inr (.inr (.inl h))
  · exact .inr (.inr (.inr (.inl ⟨i, next, out', hlt, hd, hx, hn⟩)))
  · cases hfull
  · exact .inr (.inr (.inr (.inr ⟨i, next, hlt, hd, hx, hn⟩)))

/-- Where a bit remains but no chunk is decoded, the chunk is cut. -/
theorem step_of_no_chunk (hlt : out.length < exp) (hin : cur < 8 * inp.length)
    (hno : ∀ i next, decodeAt engineConfig inp cur ≠ .chunk i next) :
    ∃ cur', step s = .next (s.cutShort cur cur') := by
  cases hd : decodeAt engineConfig inp cur with
  | endOfStream => exact absurd (decodeAt_eq_endOfStream.1 hd) (by omega)
  | truncated f => exact ⟨_, step_of_truncated hs hi he hc ho hlt hd⟩
  | chunk i next => exact absurd hd (hno i next)

end

/-- Settles O33: short of EXP the step is what stands at the cursor. -/
theorem stepRunsDecodedChunk : Obligations.StepRunsDecodedChunk := by
  intro s inp exp cur next out i hs hi he hc ho hlt hd
  exact step_of_chunk hs hi he hc ho hlt hd

/-- Settles O35: of the cases of a step that reach DONE, only the end of the stream is short of EXP. -/
theorem streamEndAtFlagFinishes : Obligations.StreamEndAtFlagFinishes := by
  intro s inp exp cur out hs hi he hc ho hlt
  refine ⟨fun hend => step_of_endOfStream hs hi he hc ho hlt hend, fun t h hdone => ?_⟩
  rcases step_cases hs hi he hc ho with ⟨hlen, -⟩ | ⟨-, hend, -⟩ | ⟨f, -, -, hn⟩ | ⟨i, next, out', -, -, -, hn⟩ |
    ⟨i, next, -, -, -, hn⟩
  · omega
  · exact hend
  all_goals
    cases hn.symm.trans h
  · cases hdone
  · cases hs.symm.trans hdone
  · cases hdone

/-- The cut of R171, written field by field, is that fewer bits remain than the chunk announces. -/
theorem cut_iff_avail_lt (inp : Memory) (cs : Nat) :
    (let o := engineConfig.byteBitOrder
     let left := 8 * inp.length - cs
     let width := engineConfig.litWidths.get (selectorOf (lsbFirst (bitsAt o inp (cs + 1) 2)))
     let n := lsbFirst (bitsAt o inp (cs + 3) width)
     let w := msbFirst (bitsAt o inp (cs + 1) 4)
     if bitAt o inp cs then left < 5 ∨ left < 5 + 2 * w
      else left < 3 ∨ left < 3 + width ∨ left < 3 + width + 8 * n) ↔
    avail inp cs < announcedBits engineConfig inp cs := by
  unfold announcedBits literalBits backrefBits avail
  dsimp only
  split <;> omega

/-- Settles O36: the chunk is cut exactly where fewer bits remain than it announces, and of the cases of a step only
a cut chunk records TruncatedChunk. -/
theorem cutChunkRaisesTruncated : Obligations.CutChunkRaisesTruncated := by
  intro s inp exp cs out hs hi he hc ho hlt hin
  dsimp only
  rw [cut_iff_avail_lt, ← exists_decodeAt_truncated_iff hin]
  refine ⟨fun ⟨f, hd⟩ => ⟨_, ?_, cutShort_cursor_le hd s.draws, step_of_truncated hs hi he hc ho hlt hd⟩,
    fun t h herr hkind => ?_⟩
  · have hf := (decodeAt_truncated hd).1
    omega
  rcases step_cases hs hi he hc ho with ⟨-, hn⟩ | ⟨-, -, hn⟩ | ⟨f, -, hd, -⟩ | ⟨i, next, out', -, -, -, hn⟩ |
    ⟨i, next, -, -, -, hn⟩
  · cases hn.symm.trans h
    cases herr
  · cases hn.symm.trans h
    cases herr
  · exact ⟨f, hd⟩
  · cases hn.symm.trans h
    cases hs.symm.trans herr
  · cases hn.symm.trans h
    cases hkind

/-- Settles O38: of the cases of a step only a cut chunk and an illegal offset reach ERROR, and each records its kind
and the cursor it started from. -/
theorem errorRecordsKindAndChunkStart : Obligations.ErrorRecordsKindAndChunkStart := by
  intro s t hs h herr
  have hw := h
  rw [step_eq] at hw
  obtain ⟨out, ho⟩ := exists_out_of_stepWith hs hw
  rcases stepWith_next_of_busy hs ho hw with rfl | ⟨inp, exp, cur, hi, he, hc⟩
  · cases herr
  rcases step_cases hs hi he hc ho with ⟨-, hn⟩ | ⟨-, -, hn⟩ | ⟨f, -, -, hn⟩ | ⟨i, next, out', -, -, -, hn⟩ |
    ⟨i, next, -, -, -, hn⟩
  all_goals
    cases hn.symm.trans h
  · cases herr
  · cases herr
  · exact ⟨_, cur, hc, rfl, rfl, .inl ⟨rfl, rfl⟩, rfl, rfl, rfl, rfl, s.latchesEmpty_cutShort ..⟩
  · cases hs.symm.trans herr
  · exact ⟨_, cur, hc, rfl, rfl, .inr ⟨rfl, rfl⟩, rfl, rfl, rfl, rfl, s.latchesEmpty_failed ..⟩

/-- Settles O40: of the cases of a step only a completed chunk leaves the command running. -/
theorem runningStepIsOneChunk : Obligations.RunningStepIsOneChunk := by
  intro s t inp exp cur out hs hi he hc ho h hbusy
  rcases step_cases hs hi he hc ho with ⟨-, hn⟩ | ⟨-, -, hn⟩ | ⟨f, -, -, hn⟩ | ⟨i, next, out', hlt, hd, hx, hn⟩ |
    ⟨i, next, -, -, -, hn⟩
  all_goals
    cases hn.symm.trans h
  · cases hbusy
  · cases hbusy
  · cases hbusy
  · obtain ⟨-, rfl, -⟩ := decodeAt_chunk hd
    exact ⟨i, hlt, hd, rfl, hx.symm⟩
  · cases hbusy

end Sys2Proof.Machine

/-! SUPPORT. The opcode table's words: the bits of a word's bytes, that they hold the whole chunk the word begins, and
that a step runs a chunk placed in any state (log 5, log 12). -/

namespace Sys2Proof.Machine

/-- A field of m bits written lsb-first and read back has lost what does not fit it. -/
theorem lsbFirst_lsbBits_eq_mod (m v : Nat) : lsbFirst (lsbBits m v) = v % 2 ^ m := by
  have hsame : lsbBits m v = lsbBits m (v % 2 ^ m) :=
    List.map_congr_left fun i hi => by simp [Nat.testBit_mod_two_pow, List.mem_range.1 hi]
  rw [hsame, lsbFirst_lsbBits (Nat.mod_lt _ (Nat.two_pow_pos m))]

/-- Past its end a stream has no bit. -/
theorem bitAt_of_le {o : BitOrder} {inp : Memory} {k : Nat} (h : 8 * inp.length ≤ k) : bitAt o inp k = false := by
  have hnone : memRead inp (k / 8) = none := List.getElem?_eq_none (by omega)
  rw [bitAt, hnone]

/-- Stream bit k of a table word's bytes is bit k of the word, and 0 past the word (log 12). -/
theorem bitAt_tableBytes (cfg : Config) (nbits w k : Nat) :
    bitAt cfg.byteBitOrder (tableBytes cfg nbits w) k = (w % 2 ^ nbits).testBit k := by
  have hv : w % 2 ^ nbits < 2 ^ max nbits (tableChunkBits cfg (w % 2 ^ nbits)) :=
    (Nat.mod_lt _ (Nat.two_pow_pos nbits)).trans_le (Nat.pow_le_pow_right (by omega) (le_max_left ..))
  by_cases hk : k < 8 * (tableBytes cfg nbits w).length
  · have hbit := testBit_lsbFirst (lsbBits (max nbits (tableChunkBits cfg (w % 2 ^ nbits))) (w % 2 ^ nbits)) k
    rw [lsbFirst_lsbBits hv] at hbit
    exact (bitAt_packBits _ _ _ hk).trans hbit.symm
  · rw [bitAt_of_le (by omega), Nat.testBit_lt_two_pow]
    refine hv.trans_le (Nat.pow_le_pow_right (by omega) ?_)
    simp only [tableBytes, length_packBits, length_lsbBits] at hk
    omega

/-- A field of a table word's bytes is a field of the word. -/
theorem bitsAt_tableBytes (cfg : Config) (nbits w a m : Nat) :
    bitsAt cfg.byteBitOrder (tableBytes cfg nbits w) a m = lsbBits m (w % 2 ^ nbits / 2 ^ a) :=
  List.map_congr_left fun i _ => by rw [bitAt_tableBytes, Nat.testBit_div_two_pow, Nat.add_comm]

/-- What a table word announces is what the table counts for it. -/
theorem announcedBits_tableBytes (cfg : Config) (nbits w : Nat) :
    announcedBits cfg (tableBytes cfg nbits w) 0 = tableChunkBits cfg (w % 2 ^ nbits) := by
  have hsel : selectorOf (w % 2 ^ nbits / 2 % 2 ^ 2) = selectorOf (w % 2 ^ nbits / 2) := Fin.ext (Nat.mod_mod _ _)
  rw [announcedBits, tableChunkBits, bitAt_tableBytes]
  simp only [bitsAt_tableBytes, lsbFirst_lsbBits_eq_mod, Nat.zero_add, pow_one, hsel]
  rfl

/-- A table word's bytes hold the whole chunk that the word begins. -/
theorem exists_decodeAt_tableBytes (nbits w : Nat) :
    ∃ i next, decodeAt engineConfig (tableBytes engineConfig nbits w) 0 = .chunk i next := by
  apply exists_decodeAt_chunk
  rw [announcedBits_tableBytes]
  simp only [avail, tableBytes, length_packBits, length_lsbBits]
  omega

/-- Where a chunk is placed, a step runs it. -/
theorem step_placeChunk {inp : Memory} {i : Instr} {next : Nat} (hd : decodeAt engineConfig inp 0 = .chunk i next)
    (s : State) : step (placeChunk inp s) = exec i (placeChunk inp s) := by
  refine step_of_chunk rfl rfl rfl rfl rfl ?_ hd
  split
  · omega
  · rename_i hshort
    rw [reachedLength_iff] at hshort
    omega

/-- Settles O24: the word's bytes decode, and placed they are the next chunk. -/
theorem tableWordIsRunNext : Obligations.TableWordIsRunNext := by
  intro s nbits w
  obtain ⟨i, next, hd⟩ := exists_decodeAt_tableBytes nbits w
  refine ⟨i, ?_, (decodeAt_chunk hd).1, step_placeChunk hd s⟩
  rw [decodeTableWord, hd]

end Sys2Proof.Machine

/-! SUPPORT. The last one to seven bits of a stream: which chunks they can hold, and what a step makes of them
(30_encoding.md R78, 70_reset_and_hazards.md R196; log 13). -/

namespace Sys2Proof.Machine

theorem engine_selector_of_width_le_four : ∀ sel : Fin 4, engineConfig.litWidths.get sel ≤ 4 → sel = 0 := by decide

theorem exists_toNat_of_lt_two {v : Nat} (h : v < 2) : ∃ b : Bool, v = b.toNat := by
  interval_cases v
  · exact ⟨false, rfl⟩
  · exact ⟨true, rfl⟩

/-- The engine's chunks of at most seven bits: the empty literal, the back-reference of width 0, and the four of
width 1. -/
theorem engine_chunk_of_le_seven {i : Instr} (hwf : i.wf engineConfig = true) (h : chunkBits engineConfig i ≤ 7) :
    i = .lit 0 [] ∨ i = .bref 0 0 0 ∨ ∃ off len : Bool, i = .bref 1 off.toNat len.toNat := by
  cases i with
  | lit sel p =>
    have hmin := (engine_litWidths_bounds sel).1
    rw [chunkBits_lit, literalBits] at h
    have hp : p = [] := List.length_eq_zero_iff.1 (by omega)
    have hsel : sel = 0 := engine_selector_of_width_le_four sel (by omega)
    exact .inl (by rw [hp, hsel])
  | bref w off len =>
    obtain ⟨-, hoff, hlen⟩ := wf_bref.1 hwf
    rw [chunkBits_bref, backrefBits] at h
    obtain rfl | rfl : w = 0 ∨ w = 1 := by omega
    · obtain rfl : off = 0 := by omega
      obtain rfl : len = 0 := by omega
      exact .inr (.inl rfl)
    · obtain ⟨o, rfl⟩ := exists_toNat_of_lt_two hoff
      obtain ⟨l, rfl⟩ := exists_toNat_of_lt_two hlen
      exact .inr (.inr ⟨o, l, rfl⟩)

theorem engine_five_le_chunkBits {i : Instr} (hwf : i.wf engineConfig = true) : 5 ≤ chunkBits engineConfig i := by
  obtain ⟨hbounds, -⟩ := chunkLengthBounds
  obtain ⟨-, hmin, -⟩ := hbounds i hwf
  exact hmin

/-- Settles O42: no chunk has fewer than five bits. -/
theorem upToFourTrailingBitsTruncate : Obligations.UpToFourTrailingBitsTruncate := by
  intro s inp exp cur out hs hi he hc ho hlt hin hfew
  obtain ⟨cur', hn⟩ := step_of_no_chunk hs hi he hc ho hlt hin fun i next hd => by
    obtain ⟨hwf, hnext, hle⟩ := decodeAt_chunk hd
    have hmin := engine_five_le_chunkBits hwf
    omega
  exact ⟨_, hn, rfl, rfl, rfl⟩

theorem encode_emptyLiteral : encode engineConfig (.lit 0 []) = List.replicate 7 false := by decide

theorem encode_bref_zero : encode engineConfig (.bref 0 0 0) = [true, false, false, false, false] := by decide

theorem encode_bref_one (off len : Bool) :
    encode engineConfig (.bref 1 off.toNat len.toNat) = [true, false, false, false, true, off, len] := by
  cases off <;> cases len <;> decide

theorem wf_bref_one (off len : Bool) : (Instr.bref 1 off.toNat len.toNat).wf engineConfig = true :=
  wf_bref.2 ⟨by decide, Bool.toNat_lt off, Bool.toNat_lt len⟩

/-- A command at byte 0 whose seven last bits are zeros, one byte short of EXP. -/
def sevenZerosLeft : State := (State.reset.start [0x00] 1).setCur 1

theorem sevenZerosLeft_inv : sevenZerosLeft.Inv engineConfig :=
  (State.inv_iff_of_busy rfl).2 ⟨[0x00], 1, 1, [], ⟨rfl, rfl, rfl, rfl, rfl, rfl, rfl⟩,
    State.reset.latchesEmpty_start [0x00] 1, ⟨nofun, by decide, by decide⟩, nofun, .inl rfl⟩

/-- Refutes O41: seven zeros are the literal without bytes, after which the command runs on. -/
theorem not_trailingBitsAlwaysTruncate : ¬ Obligations.TrailingBitsAlwaysTruncate := by
  intro h
  obtain ⟨t, ht, herr, -⟩ := h sevenZerosLeft [0x00] 1 1 [] sevenZerosLeft_inv rfl rfl rfl rfl rfl
    (by decide) (by decide) (by decide)
  have hd : decodeAt engineConfig [0x00] 1 = .chunk (.lit 0 []) 8 := by decide
  have hstep : step sevenZerosLeft = .next (sevenZerosLeft.completed 8 []) :=
    step_of_chunk rfl rfl rfl rfl rfl (by decide) hd
  cases ht.symm.trans hstep
  cases herr

/-- Settles O52: the chunks of at most seven bits, each where its encoding stands. -/
theorem trailingBitsByPattern : Obligations.TrailingBitsByPattern := by
  intro s inp exp cur out hs hi he hc ho hlt hin hfew bits
  have hlen : bits.length = 8 * inp.length - cur := length_bitsAt ..
  have htake {m : Nat} (hm : m ≤ bits.length) : bits.take m = bitsAt engineConfig.byteBitOrder inp cur m :=
    take_bitsAt _ _ _ (hlen ▸ hm)
  have hdecode {i : Instr} (hwf : i.wf engineConfig = true) (hm : chunkBits engineConfig i ≤ bits.length)
      (hbits : bits.take (chunkBits engineConfig i) = encode engineConfig i) : step s = exec i s :=
    step_of_chunk hs hi he hc ho hlt
      (decodeAt_eq_chunk_iff_encoded.2 ⟨hwf, rfl, by omega, (htake hm).symm.trans hbits⟩)
  split_ifs with hzeros hbref hone
  · have hm : bits.length = 7 := by rw [hzeros, List.length_replicate]
    have hend : 8 * inp.length = cur + chunkBits engineConfig (.lit 0 []) := by
      show _ = cur + 7
      omega
    rw [hdecode (i := .lit 0 []) rfl hm.ge (by rw [hzeros, encode_emptyLiteral]; rfl), hend,
      exec_of_expands hs hc ho rfl, List.append_nil]
  · have hm : 5 ≤ bits.length := min_eq_left_iff.1 (by rw [← List.length_take, hbref]; rfl)
    rw [hdecode (i := .bref 0 0 0) rfl hm (by rw [encode_bref_zero]; exact hbref)]
    exact exec_of_illegal hs hc ho (expandChunk_bref_of_illegal (.inl rfl))
  · obtain ⟨hfive, hm⟩ := hone
    obtain ⟨off, len, hrest⟩ := List.length_eq_two.1 (show (bits.drop 5).length = 2 by rw [List.length_drop, hm])
    have hbits : bits = [true, false, false, false, true, off, len] := by
      rw [← List.take_append_drop 5 bits, hfive, hrest]
      rfl
    rw [hbits]
    exact hdecode (wf_bref_one off len) hm.ge (by rw [hbits, encode_bref_one]; rfl)
  · suffices hno : ∀ i next, decodeAt engineConfig inp cur ≠ .chunk i next by
      obtain ⟨cur', hn⟩ := step_of_no_chunk hs hi he hc ho hlt hin hno
      exact ⟨_, hn, rfl, rfl, rfl⟩
    intro i next hd
    obtain ⟨hwf, hnext, hle, henc⟩ := decodeAt_eq_chunk_iff_encoded.1 hd
    have hm : chunkBits engineConfig i ≤ bits.length := by omega
    rw [← htake hm] at henc
    have hall : bits.take 7 = bits := List.take_of_length_le (by omega)
    rcases engine_chunk_of_le_seven hwf (by omega) with rfl | rfl | ⟨off, len, rfl⟩
    · exact hzeros (hall.symm.trans (henc.trans encode_emptyLiteral))
    · exact hbref (henc.trans encode_bref_zero)
    · have hbits : bits = [true, false, false, false, true, off, len] :=
        hall.symm.trans (henc.trans (encode_bref_one off len))
      exact hone (by rw [hbits]; exact ⟨rfl, rfl⟩)

end Sys2Proof.Machine

/-! SUPPORT. Whole commands: what every point of a run keeps, and the list of chunks that a run has consumed
(41_dispatch.md sections 2 and 3, 40_bitreader.md R98). -/

namespace Sys2Proof.Machine

/-! ## Lists of chunks -/

@[simp] theorem programBits_nil (cfg : Config) : programBits cfg [] = 0 := rfl

@[simp] theorem programBits_cons (cfg : Config) (i : Instr) (prog : List Instr) :
    programBits cfg (i :: prog) = chunkBits cfg i + programBits cfg prog := by simp [programBits]

@[simp] theorem programBits_append (cfg : Config) (a b : List Instr) :
    programBits cfg (a ++ b) = programBits cfg a + programBits cfg b := by simp [programBits]

@[simp] theorem length_encodeProgram (cfg : Config) (prog : List Instr) :
    (encodeProgram cfg prog).length = programBits cfg prog := by
  simp [encodeProgram, programBits, List.length_flatMap]

@[simp] theorem encodeProgram_append (cfg : Config) (a b : List Instr) :
    encodeProgram cfg (a ++ b) = encodeProgram cfg a ++ encodeProgram cfg b := List.flatMap_append

@[simp] theorem encodeProgram_singleton (cfg : Config) (i : Instr) : encodeProgram cfg [i] = encode cfg i := by
  simp [encodeProgram]

theorem encodeProgram_cons (cfg : Config) (i : Instr) (prog : List Instr) :
    encodeProgram cfg (i :: prog) = encode cfg i ++ encodeProgram cfg prog := List.flatMap_cons

theorem expandProgram_append (out : Memory) (a b : List Instr) :
    expandProgram out (a ++ b) = (expandProgram out a).bind fun out => expandProgram out b := by
  induction a generalizing out with
  | nil => rfl
  | cons i a ih =>
    simp only [List.cons_append, expandProgram, ih]
    cases expandChunk out i <;> rfl

theorem expandProgram_singleton (out : Memory) (i : Instr) : expandProgram out [i] = expandChunk out i := by
  simp [expandProgram]

/-- An expansion only grows the output. -/
theorem length_le_of_expandProgram {out out' : Memory} {prog : List Instr} (h : expandProgram out prog = some out') :
    out.length ≤ out'.length := by
  induction prog generalizing out with
  | nil => cases h; exact le_rfl
  | cons i prog ih =>
    obtain ⟨o, hi, hrest⟩ := Option.bind_eq_some_iff.1 h
    have hgrow := (length_expandChunk hi).1
    have hle := ih hrest
    omega

/-- Where the whole list falls short of EXP, every beginning of it does. -/
theorem expandProgram_take_short {out : Memory} {exp : Nat} {prog : List Instr} (h : expandProgram [] prog = some out)
    (hlt : out.length < exp) (j : Nat) (o : Memory)
    (ho : expandProgram [] (prog.take j) = some o) : o.length < exp := by
  rw [← List.take_append_drop j prog, expandProgram_append, ho] at h
  exact (length_le_of_expandProgram h).trans_lt hlt

/-! ## What every point of a run keeps -/

/-- A property that every step of the instance keeps holds after any number of steps. -/
theorem runWith_keeps {cfg : Config} {P : State → Prop} (hstep : ∀ s t, P s → stepWith cfg s = .next t → P t) {k : Nat}
    {s u : State} (h : P s) (hrun : runWith cfg k s = .next u) : P u := by
  induction k generalizing s with
  | zero => cases hrun; exact h
  | succ k ih =>
    rw [runWith] at hrun
    split at hrun
    · exact ih (hstep _ _ h ‹_›) hrun
    · cases hrun
    · cases hrun

/-- A run from an invariant state never stops. -/
theorem exists_runWith_of_inv {cfg : Config} (k : Nat) {s : State} (h : s.Inv cfg) :
    ∃ u, runWith cfg k s = .next u := by
  induction k generalizing s with
  | zero => exact ⟨s, rfl⟩
  | succ k ih =>
    obtain ⟨t, ht, hinv⟩ := invariantStatesNeverStop cfg s h
    rw [runWith_succ_of_next ht]
    exact ih hinv

/-- One step more. -/
theorem runWith_succ_last {cfg : Config} {k : Nat} {s u v : State} (hrun : runWith cfg k s = .next u)
    (hstep : stepWith cfg u = .next v) : runWith cfg (k + 1) s = .next v := by
  induction k generalizing s with
  | zero =>
    cases hrun
    rw [runWith_succ_of_next hstep]
    rfl
  | succ k ih =>
    rw [runWith] at hrun
    split at hrun
    · rw [runWith_succ_of_next ‹_›]
      exact ih hrun
    · cases hrun
    · cases hrun

/-- `s` meets the invariant and holds this command's arguments. -/
def State.Holds (cfg : Config) (inp : Memory) (exp : Nat) (s : State) : Prop :=
  s.Inv cfg ∧ s.inp = some inp ∧ s.exp = some exp

/-- No step writes the input or the expected length. -/
theorem stepWith_keeps_holds {cfg : Config} {inp : Memory} {exp : Nat} {s t : State} (h : s.Holds cfg inp exp)
    (hstep : stepWith cfg s = .next t) : t.Holds cfg inp exp := by
  obtain ⟨hinv, hi, he⟩ := h
  refine ⟨stepWith_keeps_inv hinv hstep, ?_⟩
  by_cases hs : s.status = .busy
  · obtain ⟨_, _, cur, out, h⟩ := (State.inv_iff_of_busy hs).1 hinv
    rcases stepWith_cases hs hi he h.runs.cur h.runs.out h.fits with ⟨-, hn⟩ | ⟨-, -, hn⟩ | ⟨f, -, -, hn⟩ |
      ⟨i, next, -, -, ⟨out', -, -, hn⟩ | ⟨out', -, -, hn⟩ | ⟨-, hn⟩⟩
    all_goals
      cases hn.symm.trans hstep
      exact ⟨hi, he⟩
  · cases (stepWith_of_not_busy hs).symm.trans hstep
    exact ⟨hi, he⟩

/-- At every point of a command's run the engine meets the invariant and holds the command's arguments. -/
theorem holds_of_run {cfg : Config} {inp : Memory} {exp k : Nat} {s t u : State}
    (hissue : issueDecode cfg inp exp s = .next t) (hrun : runWith cfg k t = .next u) : u.Holds cfg inp exp := by
  have h := issueDecode_atBoundary hissue
  exact runWith_keeps (P := State.Holds cfg inp exp) (fun _ _ => stepWith_keeps_holds)
    ⟨h.inv, h.runs.inp, h.runs.exp⟩ hrun

/-- Settles O50: the arguments are held throughout, and at IDLE the invariant leaves no value. -/
theorem hostReadsCommandArguments : Obligations.HostReadsCommandArguments := by
  refine ⟨fun cfg inp exp k s t u hissue hrun => ?_, fun cfg s hinv hs => ?_⟩
  · obtain ⟨-, hi, he⟩ := holds_of_run hissue hrun
    simp [hostReadExp, hostReadInput, hostReadInputLength, hi, he]
  · rw [State.Inv, hs] at hinv
    obtain ⟨-, hi, he, -⟩ := hinv
    simp [hostReadExp, hostReadInput, hostReadInputLength, hi, he]

/-- An output of an invariant state is in its range. -/
theorem State.Holds.outputInRange {cfg : Config} {inp out : Memory} {exp : Nat} {s : State} (h : s.Holds cfg inp exp)
    (ho : s.out = some out) : OutputInRange cfg exp out := by
  obtain ⟨⟨-, hinv⟩, -, he⟩ := h
  split at hinv
  · obtain ⟨-, -, -, hnone, -⟩ := hinv
    cases hnone.symm.trans ho
  · obtain ⟨_, _, _, _, -, he', -, ho', -, -, -, hout⟩ := hinv
    cases he.symm.trans he'
    cases ho.symm.trans ho'
    exact hout
  · obtain ⟨_, _, _, _, -, he', -, ho', -, -, -, hout, -⟩ := hinv
    cases he.symm.trans he'
    cases ho.symm.trans ho'
    exact hout
  · obtain ⟨_, _, _, _, _, -, -, -, hnone, -⟩ := hinv
    cases hnone.symm.trans ho

theorem engine_largestChunk : largestChunk engineConfig = 65535 := by decide

/-- Settles O49: the invariant's range of the output, with the engine's largest chunk. -/
theorem overshootIsBounded : Obligations.OvershootIsBounded := by
  intro inp exp k s t u out hissue hrun ho
  obtain ⟨-, hrange⟩ := (holds_of_run hissue hrun).outputInRange ho
  rw [engine_largestChunk] at hrange
  rcases hrange with rfl | hrange
  · exact ⟨fun _ => rfl, fun _ => Nat.zero_le _⟩
  · exact ⟨fun h0 => by omega, fun _ => hrange.2⟩

/-! ## Every command ends -/

/-- After k steps of a command it has ended, or it has consumed at least three bits for each (41_dispatch.md R119). -/
theorem runWith_ends_or_advances {cfg : Config} {inp : Memory} {exp k cur : Nat} {out : Memory} {s u : State}
    (h : s.AtBoundary cfg inp exp cur out) (hrun : runWith cfg k s = .next u) :
    (u.status = .done ∨ u.status = .error) ∨
    ∃ cur' out', u.AtBoundary cfg inp exp cur' out' ∧ cur + 3 * k ≤ cur' := by
  induction k generalizing s cur out with
  | zero => cases hrun; exact .inr ⟨cur, out, h, le_rfl⟩
  | succ k ih =>
    have hended {t : State} (hn : stepWith cfg s = .next t) (ht : t.status = .done ∨ t.status = .error) :
        u.status = .done ∨ u.status = .error := by
      have hrest : t.status ≠ .busy := by rcases ht with ht | ht <;> simp [ht]
      rw [runWith_succ_of_next hn, runWith_of_not_busy hrest] at hrun
      cases hrun
      exact ht
    rcases stepWith_cases h.runs.status h.runs.inp h.runs.exp h.runs.cur h.runs.out h.fits with
      ⟨-, hn⟩ | ⟨-, -, hn⟩ | ⟨f, -, -, hn⟩ | ⟨i, next, hlt, hd, ⟨out', hx, hfit, hn⟩ | ⟨out', -, -, hn⟩ | ⟨-, hn⟩⟩
    · exact .inl (hended hn (.inl rfl))
    · exact .inl (hended hn (.inl rfl))
    · exact .inl (hended hn (.inr rfl))
    · rw [runWith_succ_of_next hn] at hrun
      obtain ⟨-, hnext, -⟩ := decodeAt_chunk hd
      have hbits := three_le_chunkBits cfg i
      exact (ih (h.completed hlt hd hx hfit) hrun).imp_right fun ⟨cur', o, hb, hle⟩ => ⟨cur', o, hb, by omega⟩
    · exact .inl (hended hn (.inr rfl))
    · exact .inl (hended hn (.inr rfl))

/-- Settles O43: a command still running after 8N/3 + 1 steps would have its cursor past the stream. -/
theorem everyCommandEnds : Obligations.EveryCommandEnds := by
  intro inp exp s t hissue
  have h := issueDecode_atBoundary hissue
  obtain ⟨u, hrun⟩ := exists_runWith_of_inv (8 * inp.length / 3 + 1) h.inv
  refine ⟨u, hrun, ?_⟩
  rcases runWith_ends_or_advances h hrun with hend | ⟨cur', out', hb, hle⟩
  · exact hend
  · have hcur := hb.cur_le
    omega

/-! ## The chunks a run has consumed -/

/-- `prog` is what stands at the start of the stream up to `cur`: well-formed chunks, encoded one after the other, that
expand to `out`; and no shorter beginning of it had reached EXP. -/
structure Consumed (cfg : Config) (inp : Memory) (exp : Nat) (prog : List Instr) (cur : Nat) (out : Memory) : Prop where
  wf : ∀ i ∈ prog, i.wf cfg = true
  cur_eq : cur = programBits cfg prog
  cur_le : cur ≤ 8 * inp.length
  bits : bitsAt cfg.byteBitOrder inp 0 cur = encodeProgram cfg prog
  expands : expandProgram [] prog = some out
  short : ∀ j < prog.length, ∀ o, expandProgram [] (prog.take j) = some o → o.length < exp

theorem consumed_nil (cfg : Config) (inp : Memory) (exp : Nat) : Consumed cfg inp exp [] 0 [] :=
  ⟨nofun, rfl, Nat.zero_le _, rfl, rfl, nofun⟩

/-- Short of EXP, the chunk decoded at the cursor is consumed next. -/
theorem Consumed.snoc {cfg : Config} {inp : Memory} {exp cur next : Nat} {prog : List Instr} {out out' : Memory}
    {i : Instr} (h : Consumed cfg inp exp prog cur out) (hlt : out.length < exp)
    (hd : decodeAt cfg inp cur = .chunk i next) (hx : expandChunk out i = some out') :
    Consumed cfg inp exp (prog ++ [i]) next out' := by
  obtain ⟨hwf, rfl, hle, hbits⟩ := decodeAt_eq_chunk_iff_encoded.1 hd
  refine ⟨?_, by simp [h.cur_eq], hle, ?_, ?_, fun j hj o ho => ?_⟩
  · simpa [or_imp, forall_and] using ⟨h.wf, hwf⟩
  · rw [bitsAt_add, h.bits, Nat.zero_add, hbits, encodeProgram_append, encodeProgram_singleton]
  · rw [expandProgram_append, h.expands, Option.bind_some, expandProgram_singleton, hx]
  · rw [List.length_append, List.length_singleton] at hj
    rw [List.take_append_of_le_length (by omega)] at ho
    rcases Nat.lt_or_ge j prog.length with hlt' | hge
    · exact h.short j hlt' o ho
    · rw [List.take_of_length_le hge, h.expands] at ho
      cases ho
      exact hlt

/-- What is wrong with the chunk at `cur` where the output is `out`: it is cut, or it is a back-reference whose offset
is illegal for that output (60_exceptions.md R171, 43_backref.md R151). -/
def BadChunk (cfg : Config) (inp : Memory) (cur : Nat) (out : Memory) (kind : Option ErrKind) : Prop :=
  (kind = some .truncatedChunk ∧ ∃ f, decodeAt cfg inp cur = .truncated f) ∨
  (kind = some .invalidBackreference ∧ ∃ w off len next, decodeAt cfg inp cur = .chunk (.bref w off len) next ∧
    (off = 0 ∨ out.length < off))

/-- How a command on the engine of this spec stands, against the chunks it has consumed: it runs at their end; or it has
finished there, at EXP or at the end of the stream; or the chunk there is bad. -/
def State.Stands (inp : Memory) (exp : Nat) (s : State) : Prop :=
  ∃ prog cur out, Consumed engineConfig inp exp prog cur out ∧
    (s.Runs inp exp cur out ∨
     (s.status = .done ∧ s.cur = some cur ∧ s.out = some out ∧ (exp ≤ out.length ∨ cur = 8 * inp.length)) ∨
     (s.status = .error ∧ s.errPos = some cur ∧ cur < 8 * inp.length ∧ out.length < exp ∧
       BadChunk engineConfig inp cur out s.errKind))

/-- A step of a running command leaves it standing against the same chunks, or against one more. -/
theorem State.Runs.step_stands {inp out : Memory} {exp cur : Nat} {prog : List Instr} {s t : State}
    (h : s.Runs inp exp cur out) (hcons : Consumed engineConfig inp exp prog cur out) (hstep : step s = .next t) :
    t.Stands inp exp := by
  rcases step_cases h.status h.inp h.exp h.cur h.out with ⟨hlen, hn⟩ | ⟨-, hend, hn⟩ | ⟨f, hlt, hd, hn⟩ |
    ⟨i, next, out', hlt, hd, hx, hn⟩ | ⟨i, next, hlt, hd, hx, hn⟩
  all_goals cases hn.symm.trans hstep
  · exact ⟨prog, cur, out, hcons, .inr (.inl ⟨rfl, h.cur, h.out, .inl hlen⟩)⟩
  · exact ⟨prog, cur, out, hcons, .inr (.inl ⟨rfl, h.cur, h.out, .inr (le_antisymm hcons.cur_le hend)⟩)⟩
  · have hpos := decodeAt_truncated hd
    exact ⟨prog, cur, out, hcons, .inr (.inr ⟨rfl, rfl, by omega, hlt, .inl ⟨rfl, f, hd⟩⟩)⟩
  · exact ⟨_, next, out', hcons.snoc hlt hd hx, .inl (h.completed next out')⟩
  · obtain ⟨hpos, -⟩ := decodeAt_eq_chunk.1 hd
    obtain ⟨w, off, len, rfl, hoff⟩ := expandChunk_eq_none hx
    exact ⟨prog, cur, out, hcons, .inr (.inr ⟨rfl, rfl, hpos, hlt, .inr ⟨rfl, w, off, len, next, hd, hoff⟩⟩)⟩

theorem stepWith_keeps_stands {inp : Memory} {exp : Nat} {s t : State} (h : s.Stands inp exp)
    (hstep : stepWith engineConfig s = .next t) : t.Stands inp exp := by
  obtain ⟨prog, cur, out, hcons, hruns | hended⟩ := id h
  · exact hruns.step_stands hcons ((step_eq s).trans hstep)
  · have hs : s.status ≠ .busy := by rcases hended with ⟨hs, -⟩ | ⟨hs, -⟩ <;> simp [hs]
    cases (stepWith_of_not_busy hs).symm.trans hstep
    exact h

/-- Every point of a command's run stands against the chunks consumed. -/
theorem stands_of_run {inp : Memory} {exp k : Nat} {s t u : State}
    (hissue : issueDecode engineConfig inp exp s = .next t) (hrun : runWith engineConfig k t = .next u) :
    u.Stands inp exp := by
  refine runWith_keeps (P := State.Stands inp exp) (fun _ _ => stepWith_keeps_stands) ?_ hrun
  exact ⟨[], 0, [], consumed_nil .., .inl (issueDecode_atBoundary hissue).runs⟩

/-- Settles O44: each read's own equation; and a finished command stands at the end of the chunks it has consumed. -/
theorem finishedCommandConsumedWholeChunks : Obligations.FinishedCommandConsumedWholeChunks := by
  refine ⟨fun o inp cur m v c => ⟨fun h => ?_, fun h => ?_, fun h => ?_, fun p h => ?_⟩,
    fun inp exp k s t u hissue hrun hdone => ?_⟩
  · obtain ⟨-, -, hc⟩ := readBit_eq_ok.1 h
    exact hc.symm
  · obtain ⟨-, -, hc⟩ := readUIntLsbFirst_eq_ok.1 h
    exact hc.symm
  · obtain ⟨-, -, hc⟩ := readUIntMsbFirst_eq_ok.1 h
    exact hc.symm
  · obtain ⟨-, -, hc⟩ := readBytes_eq_ok.1 h
    exact hc.symm
  · obtain ⟨prog, _, out, ⟨hwf, rfl, hle, hbits, hx, hshort⟩, hruns | ⟨-, hc, ho, hend⟩ | ⟨herr, -⟩⟩ :=
      stands_of_run hissue hrun
    · cases hruns.status.symm.trans hdone
    · exact ⟨prog, out, hwf, hc, hle, hbits, hx, ho, hshort, hend⟩
    · cases herr.symm.trans hdone

/-- Settles O45: a failed command stands before the chunk it found bad. -/
theorem errorNamesFirstBadChunk : Obligations.ErrorNamesFirstBadChunk := by
  intro inp exp k s t u hissue hrun herr
  obtain ⟨prog, _, out, ⟨hwf, rfl, -, hbits, hx, -⟩, hruns | ⟨hdone, -⟩ | ⟨-, hpos, hlt, hshort, hbad⟩⟩ :=
    stands_of_run hissue hrun
  · cases hruns.status.symm.trans herr
  · cases hdone.symm.trans herr
  · exact ⟨prog, out, hwf, hpos, hlt, hbits, hx, hshort, hbad⟩

end Sys2Proof.Machine

/-! SUPPORT. A list of chunks that was encoded and packed is run chunk by chunk, and what stands after it decides how
the command ends (41_dispatch.md R112 to R115, 70_reset_and_hazards.md R196). -/

namespace Sys2Proof.Machine

/-! ## The stream of an encoded list -/

/-- The encoding of a chunk before that of a list stands where both stand in their places. -/
theorem bitsAt_eq_encodeProgram_cons_iff {cfg : Config} {inp : Memory} {cur : Nat} {i : Instr} {prog : List Instr} :
    bitsAt cfg.byteBitOrder inp cur (programBits cfg (i :: prog)) = encodeProgram cfg (i :: prog) ↔
      bitsAt cfg.byteBitOrder inp cur (chunkBits cfg i) = encode cfg i ∧
      bitsAt cfg.byteBitOrder inp (cur + chunkBits cfg i) (programBits cfg prog) = encodeProgram cfg prog := by
  rw [programBits_cons, encodeProgram_cons, ← length_encode, bitsAt_eq_append_iff]

/-- A packed list stands at the start of its stream. -/
theorem bitsAt_packBits_encodeProgram (cfg : Config) (prog : List Instr) (after : List Bool) (pad : Bool) :
    bitsAt cfg.byteBitOrder (packBits cfg.byteBitOrder pad (encodeProgram cfg prog ++ after)) 0 (programBits cfg prog)
      = encodeProgram cfg prog := by
  have h := bitsAt_packBits cfg.byteBitOrder pad [] (encodeProgram cfg prog) after
  rwa [length_encodeProgram] at h

theorem programBits_le_packBits (cfg : Config) (prog : List Instr) (after : List Bool) (pad : Bool) :
    programBits cfg prog ≤ 8 * (packBits cfg.byteBitOrder pad (encodeProgram cfg prog ++ after)).length := by
  rw [length_packBits, List.length_append, length_encodeProgram]
  omega

/-- What follows a packed list up to the next byte boundary is padding. -/
theorem bitsAt_padding {o : BitOrder} {pad : Bool} {bits : List Bool} {m : Nat}
    (h : bits.length + m ≤ 8 * (packBits o pad bits).length) :
    bitsAt o (packBits o pad bits) bits.length m = List.replicate m pad := by
  rw [List.eq_replicate_iff]
  refine ⟨length_bitsAt .., fun b hb => ?_⟩
  obtain ⟨i, hi, rfl⟩ := List.mem_map.1 hb
  rw [List.mem_range] at hi
  rw [bitAt_packBits _ _ _ (by omega), List.getD_eq_default _ _ (by omega)]

/-! ## The run of a list -/

section
variable {cfg : Config} {inp out out' : Memory} {exp cur : Nat} {s : State}

/-- On an unbounded instance a chunk that is decoded short of EXP and has an expansion leaves the command running. -/
theorem State.Runs.stepWith_chunk (h : s.Runs inp exp cur out) (hcap : cfg.outCap = none) (hlt : out.length < exp)
    {i : Instr} {next : Nat} (hd : decodeAt cfg inp cur = .chunk i next) (hx : expandChunk out i = some out') :
    ∃ t, stepWith cfg s = .next t ∧ t.Runs inp exp next out' := by
  have hfits (size : Nat) : fits cfg.outCap size = true := by rw [hcap, fits_none]
  obtain ⟨-, rfl, -⟩ := decodeAt_chunk hd
  refine ⟨_, ?_, h.completed (cur + chunkBits cfg i) out'⟩
  rw [stepWith_of_busy h.status h.inp h.exp h.cur h.out, if_neg (by omega), hd]
  exact (h.execWith_eq (hfits _) i).trans (by rw [hx, Option.elim_some, if_pos (hfits _)])

/-- At EXP or at the end of the stream the command finishes. -/
theorem State.Runs.stepWith_finish (h : s.Runs inp exp cur out) (hend : exp ≤ out.length ∨ 8 * inp.length ≤ cur) :
    stepWith cfg s = .next s.finish := by
  rw [stepWith_of_busy h.status h.inp h.exp h.cur h.out]
  split
  · rfl
  · rw [decodeAt_eq_endOfStream.2 (hend.resolve_left ‹_›)]

/-- Well-formed chunks that stand encoded at the cursor, expand, and reach EXP with none but the last, are run one by
one. -/
theorem State.Runs.runWith_program {prog : List Instr} (hcap : cfg.outCap = none) (h : s.Runs inp exp cur out)
    (hwf : ∀ i ∈ prog, i.wf cfg = true)
    (hbits : bitsAt cfg.byteBitOrder inp cur (programBits cfg prog) = encodeProgram cfg prog)
    (hin : cur + programBits cfg prog ≤ 8 * inp.length) (hx : expandProgram out prog = some out')
    (hshort : ∀ j < prog.length, ∀ o, expandProgram out (prog.take j) = some o → o.length < exp) :
    ∃ u, runWith cfg prog.length s = .next u ∧ u.Runs inp exp (cur + programBits cfg prog) out' := by
  induction prog generalizing s cur out with
  | nil =>
    cases hx
    exact ⟨s, rfl, h⟩
  | cons i prog ih =>
    obtain ⟨o, hi, hrest⟩ := Option.bind_eq_some_iff.1 hx
    obtain ⟨hbi, hbrest⟩ := bitsAt_eq_encodeProgram_cons_iff.1 hbits
    rw [programBits_cons] at hin ⊢
    have hd : decodeAt cfg inp cur = .chunk i (cur + chunkBits cfg i) :=
      decodeAt_eq_chunk_iff_encoded.2 ⟨hwf i List.mem_cons_self, rfl, by omega, hbi⟩
    obtain ⟨t, ht, hruns⟩ := h.stepWith_chunk hcap (hshort 0 (Nat.succ_pos _) out rfl) hd hi
    obtain ⟨u, hu, hend⟩ := ih hruns (fun i hi => hwf i (List.mem_cons_of_mem _ hi)) hbrest (by omega) hrest
      fun j hj o' ho' => hshort (j + 1) (Nat.succ_lt_succ hj) o' (Option.bind_eq_some_iff.2 ⟨o, hi, ho'⟩)
    rw [Nat.add_assoc] at hend
    exact ⟨u, by rw [List.length_cons, runWith_succ_of_next ht, hu], hend⟩

end

/-- A command over a packed list of well-formed chunks that expands to `out` and reaches EXP with none but the last: it
is accepted, and after as many steps as chunks it runs at the end of the list. -/
theorem exists_run_of_packed_program {cfg : Config} {prog : List Instr} {after : List Bool} {pad : Bool} {out : Memory}
    {exp : Nat} {s : State} (hcap : cfg.outCap = none) (hmax : cfg.inMax = none) (hexp : exp < 2 ^ cfg.expWidth)
    (hs : s.status ≠ .busy) (hwf : ∀ i ∈ prog, i.wf cfg = true) (hx : expandProgram [] prog = some out)
    (hshort : ∀ j < prog.length, ∀ o, expandProgram [] (prog.take j) = some o → o.length < exp) :
    ∃ t u, issueDecode cfg (packBits cfg.byteBitOrder pad (encodeProgram cfg prog ++ after)) exp s = .next t ∧
      runWith cfg prog.length t = .next u ∧
      u.Runs (packBits cfg.byteBitOrder pad (encodeProgram cfg prog ++ after)) exp (programBits cfg prog) out := by
  have hin := programBits_le_packBits cfg prog after pad
  obtain ⟨u, hu, hruns⟩ := (s.start_runs _ exp).runWith_program hcap hwf
    (bitsAt_packBits_encodeProgram cfg prog after pad) (by omega) hx hshort
  rw [Nat.zero_add] at hruns
  exact ⟨_, u, issueDecode_eq_next_iff.2 ⟨hs, by simp [hmax], hexp, rfl⟩, hu, hruns⟩

/-- Settles O46: the list is run to its end, where EXP is reached. -/
theorem programDecodesToItsExpansion : Obligations.ProgramDecodesToItsExpansion := by
  intro cfg prog after pad out exp s hcap hmax hexp hs hwf hx hlen hshort
  obtain ⟨t, u, ht, hu, hruns⟩ :=
    exists_run_of_packed_program (after := after) (pad := pad) hcap hmax hexp hs hwf hx hshort
  exact ⟨t, u.finish, ht, runWith_succ_last hu (hruns.stepWith_finish (.inl hlen)), rfl, hruns.out, hruns.cur⟩

/-- A list that falls short of EXP on the engine of this spec, packed with nothing after it, is run to its end. -/
theorem exists_run_of_short_program {prog : List Instr} (pad : Bool) {out : Memory} {exp : Nat} {s : State}
    (hexp : exp < 2 ^ 32) (hs : s.status ≠ .busy) (hwf : ∀ i ∈ prog, i.wf engineConfig = true)
    (hx : expandProgram [] prog = some out) (hlt : out.length < exp) :
    ∃ t u, issueDecode engineConfig (packBits engineConfig.byteBitOrder pad (encodeProgram engineConfig prog)) exp s
        = .next t ∧ runWith engineConfig prog.length t = .next u ∧
      u.Runs (packBits engineConfig.byteBitOrder pad (encodeProgram engineConfig prog)) exp
        (programBits engineConfig prog) out := by
  have h := exists_run_of_packed_program (cfg := engineConfig) (after := []) (pad := pad) rfl rfl hexp hs hwf hx
    fun j _ => expandProgram_take_short hx hlt j
  rwa [List.append_nil] at h

/-- Settles O47: the list is run to its end, which is the end of the stream. -/
theorem shortProgramEndsGracefully : Obligations.ShortProgramEndsGracefully := by
  intro prog pad out exp s hexp hs hwf hx hlt haligned
  obtain ⟨t, u, ht, hu, hruns⟩ := exists_run_of_short_program pad hexp hs hwf hx hlt
  have hend : 8 * (packBits engineConfig.byteBitOrder pad (encodeProgram engineConfig prog)).length
      ≤ programBits engineConfig prog := by
    rw [length_packBits, length_encodeProgram]
    omega
  exact ⟨t, u.finish, ht, runWith_succ_last hu (hruns.stepWith_finish (.inr hend)), rfl, hruns.out,
    shortResult_iff.2 hlt, hruns.cur⟩

/-! ## Padding -/

/-- The one chunk of at most seven equal bits is the empty literal, seven zeros (log 13). -/
theorem chunk_of_equal_bits {i : Instr} {pad : Bool} (hwf : i.wf engineConfig = true)
    (hle : chunkBits engineConfig i ≤ 7)
    (henc : encode engineConfig i = List.replicate (chunkBits engineConfig i) pad) :
    i = .lit 0 [] ∧ pad = false := by
  rcases engine_chunk_of_le_seven hwf hle with rfl | rfl | ⟨off, len, rfl⟩
  · exact ⟨rfl, (List.cons.inj henc).1.symm⟩
  · have hbits : [true, false, false, false, false] = List.replicate 5 pad := encode_bref_zero.symm.trans henc
    cases pad <;> cases hbits
  · have hbits : [true, false, false, false, true, off, len] = List.replicate 7 pad :=
      (encode_bref_one off len).symm.trans henc
    cases pad <;> cases hbits

/-- Padding of one to seven bits holds no chunk, unless it is seven zeros. -/
theorem decodeAt_padding_ne_chunk {pad : Bool} {bits : List Bool} (hno : ¬ (pad = false ∧ bits.length % 8 = 1))
    (i : Instr) (next : Nat) :
    decodeAt engineConfig (packBits engineConfig.byteBitOrder pad bits) bits.length ≠ .chunk i next := by
  intro hd
  obtain ⟨hwf, rfl, hle, henc⟩ := decodeAt_eq_chunk_iff_encoded.1 hd
  rw [bitsAt_padding hle] at henc
  rw [length_packBits] at hle
  obtain ⟨rfl, hpad⟩ := chunk_of_equal_bits hwf (by omega) henc.symm
  have hseven : chunkBits engineConfig (.lit 0 []) = 7 := rfl
  exact hno ⟨hpad, by omega⟩

/-- Seven zeros of padding are the empty literal. -/
theorem decodeAt_padding_seven_zeros {bits : List Bool} (h : bits.length % 8 = 1) :
    decodeAt engineConfig (packBits engineConfig.byteBitOrder false bits) bits.length
      = .chunk (.lit 0 []) (bits.length + 7) := by
  have hin : bits.length + 7 ≤ 8 * (packBits engineConfig.byteBitOrder false bits).length := by
    rw [length_packBits]
    omega
  exact decodeAt_eq_chunk_iff_encoded.2 ⟨rfl, rfl, hin, (bitsAt_padding hin).trans encode_emptyLiteral.symm⟩

/-- Settles O53: the list is run to its end; padding holds no chunk there, unless it is seven zeros, whose empty literal
ends at the end of the stream. -/
theorem paddedShortProgramTruncates : Obligations.PaddedShortProgramTruncates := by
  intro prog pad out exp s hexp hs hwf hx hlt hpadded
  obtain ⟨t, u, ht, hu, hruns⟩ := exists_run_of_short_program pad hexp hs hwf hx hlt
  rw [← length_encodeProgram] at hpadded hruns ⊢
  refine ⟨t, ht, fun hno => ?_, fun hseven => ?_⟩
  · obtain ⟨cur', hn⟩ := step_of_no_chunk hruns.status hruns.inp hruns.exp hruns.cur hruns.out hlt
      (by rw [length_packBits]; omega) (decodeAt_padding_ne_chunk hno)
    rw [step_eq] at hn
    exact ⟨_, runWith_succ_last hu hn, rfl, rfl, rfl, rfl⟩
  · obtain ⟨rfl, hone⟩ := hseven
    obtain ⟨v, hv, hend⟩ := hruns.stepWith_chunk rfl hlt (decodeAt_padding_seven_zeros hone) rfl
    rw [List.append_nil] at hend
    have hstop := hend.stepWith_finish (cfg := engineConfig) (.inr (by rw [length_packBits]; omega))
    exact ⟨v.finish, runWith_succ_last (runWith_succ_last hu hv) hstop, rfl, hend.out, hend.cur⟩

end Sys2Proof.Machine
